-- ==== Sys2Proof/Word.lean ====
section
/-! DEFINITION. The word types of the engine: 16-bit words, 8-bit characters, and the names of the general registers
(spec/00_scope.md R7 to R9, spec/10_state.md R20). -/

namespace Sys2Proof

/-- `Word16` of R9: every register, cell, address and instruction word. -/
abbrev Word := BitVec 16

/-- An 8-bit character, as `InChar` delivers it and `OutChar` takes it (R13, R129). -/
abbrev Byte := BitVec 8

/-- The name of a general register, R0 to R7 (R20); a 3-bit field of an encoding selects it (R64). -/
abbrev Reg := Fin 8

end Sys2Proof
end

