-- ==== Sys2Proof/Syntax.lean ====
section
/-! DEFINITION. The instructions: one constructor per row of spec/opcode_table.json, with the operand fields of
spec/30_encoding.md R62. Immediate and offset fields are held as the raw field; the machine sign-extends them (R64).
The bits R63 marks x are no operands (R65). -/

namespace Sys2Proof

inductive Instr where
  /-- ADD, register mode (R80) -/
  | addReg (dr sr1 sr2 : Reg)
  /-- ADD, immediate mode (R81) -/
  | addImm (dr sr1 : Reg) (imm5 : BitVec 5)
  /-- AND, register mode (R82) -/
  | andReg (dr sr1 sr2 : Reg)
  /-- AND, immediate mode (R83) -/
  | andImm (dr sr1 : Reg) (imm5 : BitVec 5)
  /-- NOT (R84) -/
  | not (dr sr : Reg)
  /-- BR (R90); `nzp` is `instr[11:9]`, the mask ANDed with `cond` -/
  | br (nzp : BitVec 3) (offset9 : BitVec 9)
  /-- RET (R92): the words of JMP with BaseR = 7 (log 5) -/
  | ret
  /-- JMP through a register other than R7 (R91; with R7 it is `ret`) -/
  | jmp (base : Reg)
  /-- JSR (R93) -/
  | jsr (offset11 : BitVec 11)
  /-- JSRR (R94) -/
  | jsrr (base : Reg)
  /-- LD (R100) -/
  | ld (dr : Reg) (offset9 : BitVec 9)
  /-- LDI (R101) -/
  | ldi (dr : Reg) (offset9 : BitVec 9)
  /-- LDR (R102) -/
  | ldr (dr base : Reg) (offset6 : BitVec 6)
  /-- LEA (R103) -/
  | lea (dr : Reg) (offset9 : BitVec 9)
  /-- ST (R104) -/
  | st (sr : Reg) (offset9 : BitVec 9)
  /-- STI (R105) -/
  | sti (sr : Reg) (offset9 : BitVec 9)
  /-- STR (R106) -/
  | str (sr base : Reg) (offset6 : BitVec 6)
  /-- TRAP GETC, selector 0x20 (R121) -/
  | trapGetc
  /-- TRAP OUT, selector 0x21 (R122) -/
  | trapOut
  /-- TRAP PUTS, selector 0x22 (R123) -/
  | trapPuts
  /-- TRAP IN, selector 0x23 (R124) -/
  | trapIn
  /-- TRAP PUTSP, selector 0x24 (R125) -/
  | trapPutsp
  /-- TRAP HALT, selector 0x25 (R126) -/
  | trapHalt
  /-- TRAP with a selector outside 0x20..0x25 (R127) -/
  | trapUnrecognized (trapvect8 : BitVec 8)
  /-- RTI, reserved (R140) -/
  | rti
  /-- RES, reserved (R141) -/
  | res
  deriving DecidableEq, Repr

end Sys2Proof
end

