-- ==== Sys2Proof/WellFormed.lean ====
section
/-! DEFINITION. The checks on an instruction that its types do not make: the two places where spec/30_encoding.md R68
resolves an overlap of table rows. -/

namespace Sys2Proof

/-- The selectors 0x20 to 0x25 have a routine (spec/43_trap.md R120). -/
def isServiceSelector (v : BitVec 8) : Bool := 0x20#8 ≤ v && v ≤ 0x25#8

/-- R68: a word that matches the RET row is RET, not JMP (log 5), and a TRAP word is the unrecognized-selector row only
when no service row matches. Every other operand fits its field by its type. -/
def Instr.wellFormed : Instr → Bool
  | .jmp base => base != 7
  | .trapUnrecognized v => !isServiceSelector v
  | .addReg _ _ _ | .addImm _ _ _ | .andReg _ _ _ | .andImm _ _ _ | .not _ _ | .br _ _ | .ret | .jsr _ | .jsrr _
  | .ld _ _ | .ldi _ _ | .ldr _ _ _ | .lea _ _ | .st _ _ | .sti _ _ | .str _ _ _
  | .trapGetc | .trapOut | .trapPuts | .trapIn | .trapPutsp | .trapHalt | .rti | .res => true

end Sys2Proof
end

