-- ==== Sys2Proof/Decode.lean ====
section
/-! DEFINITION. From a fetched word to an instruction, and back (spec/30_encoding.md R60 to R68). The opcode numbers and
field positions are the spec's adopted standard LC-3 encoding (its D2 and D3; log 9). -/

namespace Sys2Proof

/-- The register that a 3-bit field selects (R64). -/
def regOfBits (b : BitVec 3) : Reg := Fin.ofNat 8 b.toNat

/-- The 3-bit field that selects a register. -/
def regBits (r : Reg) : BitVec 3 := BitVec.ofNat 3 r.val

/-- `instr[15:12]` (R61). -/
def opcodeField (w : Word) : BitVec 4 := w.extractLsb' 12 4

/-- `DR`, and `SR` of a store: `instr[11:9]` (R62). -/
def drField (w : Word) : Reg := regOfBits (w.extractLsb' 9 3)

/-- `SR1`, `BaseR`, and `SR` of NOT: `instr[8:6]` (R62). -/
def sr1Field (w : Word) : Reg := regOfBits (w.extractLsb' 6 3)

/-- `SR2`: `instr[2:0]` (R62). -/
def sr2Field (w : Word) : Reg := regOfBits (w.extractLsb' 0 3)

/-- The immediate flag, `instr[5]` (R62). -/
def immFlag (w : Word) : Bool := w.getLsbD 5

/-- The long flag of JSR and JSRR, `instr[11]` (R62). -/
def longFlag (w : Word) : Bool := w.getLsbD 11

/-- `imm5`: `instr[4:0]`. -/
def imm5Field (w : Word) : BitVec 5 := w.extractLsb' 0 5

/-- `offset6`: `instr[5:0]`. -/
def offset6Field (w : Word) : BitVec 6 := w.extractLsb' 0 6

/-- `PCoffset9`: `instr[8:0]`. -/
def offset9Field (w : Word) : BitVec 9 := w.extractLsb' 0 9

/-- `PCoffset11`: `instr[10:0]`. -/
def offset11Field (w : Word) : BitVec 11 := w.extractLsb' 0 11

/-- The branch mask `instr[11:9]`: n, z, p. -/
def nzpField (w : Word) : BitVec 3 := w.extractLsb' 9 3

/-- `trapvect8`: `instr[7:0]`. -/
def trapvectField (w : Word) : BitVec 8 := w.extractLsb' 0 8

/-- Why a word is rejected. The source's row "(unrecognized opcode value)" of spec/60_exceptions.md R150; R68 says that no
word reaches it. -/
inductive DecodeError where
  | badOpcode
  deriving DecidableEq, Repr

/-- The row of a TRAP word by its selector (spec/43_trap.md R120). -/
def decodeTrap (v : BitVec 8) : Instr :=
  if v = 0x20#8 then .trapGetc
  else if v = 0x21#8 then .trapOut
  else if v = 0x22#8 then .trapPuts
  else if v = 0x23#8 then .trapIn
  else if v = 0x24#8 then .trapPutsp
  else if v = 0x25#8 then .trapHalt
  else .trapUnrecognized v

/-- The decoder: the opcode map of R61 with the fields of R62 and R63. The bits R63 marks x are not read (R65). -/
def decode (w : Word) : Except DecodeError Instr :=
  match opcodeField w with
  | 0x0#4 => .ok (.br (nzpField w) (offset9Field w))
  | 0x1#4 => .ok (if immFlag w then .addImm (drField w) (sr1Field w) (imm5Field w)
                  else .addReg (drField w) (sr1Field w) (sr2Field w))
  | 0x2#4 => .ok (.ld (drField w) (offset9Field w))
  | 0x3#4 => .ok (.st (drField w) (offset9Field w))
  | 0x4#4 => .ok (if longFlag w then .jsr (offset11Field w) else .jsrr (sr1Field w))
  | 0x5#4 => .ok (if immFlag w then .andImm (drField w) (sr1Field w) (imm5Field w)
                  else .andReg (drField w) (sr1Field w) (sr2Field w))
  | 0x6#4 => .ok (.ldr (drField w) (sr1Field w) (offset6Field w))
  | 0x7#4 => .ok (.str (drField w) (sr1Field w) (offset6Field w))
  | 0x8#4 => .ok .rti
  | 0x9#4 => .ok (.not (drField w) (sr1Field w))
  | 0xA#4 => .ok (.ldi (drField w) (offset9Field w))
  | 0xB#4 => .ok (.sti (drField w) (offset9Field w))
  | 0xC#4 => .ok (if sr1Field w = 7 then .ret else .jmp (sr1Field w))
  | 0xD#4 => .ok .res
  | 0xE#4 => .ok (.lea (drField w) (offset9Field w))
  | 0xF#4 => .ok (decodeTrap (trapvectField w))
  | _ => .error .badOpcode

/-- The encoder: the layouts of R63, with the bracketed values in the ignored bits. -/
def encode : Instr → Word
  | .addReg dr sr1 sr2 => 0b0001#4 ++ regBits dr ++ regBits sr1 ++ 0b000#3 ++ regBits sr2
  | .addImm dr sr1 imm5 => 0b0001#4 ++ regBits dr ++ regBits sr1 ++ 0b1#1 ++ imm5
  | .andReg dr sr1 sr2 => 0b0101#4 ++ regBits dr ++ regBits sr1 ++ 0b000#3 ++ regBits sr2
  | .andImm dr sr1 imm5 => 0b0101#4 ++ regBits dr ++ regBits sr1 ++ 0b1#1 ++ imm5
  | .not dr sr => 0b1001#4 ++ regBits dr ++ regBits sr ++ 0b111111#6
  | .br nzp offset9 => 0b0000#4 ++ nzp ++ offset9
  | .ret => 0xC1C0#16
  | .jmp base => 0b1100#4 ++ 0b000#3 ++ regBits base ++ 0b000000#6
  | .jsr offset11 => 0b01001#5 ++ offset11
  | .jsrr base => 0b01000#5 ++ 0b00#2 ++ regBits base ++ 0b000000#6
  | .ld dr offset9 => 0b0010#4 ++ regBits dr ++ offset9
  | .ldi dr offset9 => 0b1010#4 ++ regBits dr ++ offset9
  | .ldr dr base offset6 => 0b0110#4 ++ regBits dr ++ regBits base ++ offset6
  | .lea dr offset9 => 0b1110#4 ++ regBits dr ++ offset9
  | .st sr offset9 => 0b0011#4 ++ regBits sr ++ offset9
  | .sti sr offset9 => 0b1011#4 ++ regBits sr ++ offset9
  | .str sr base offset6 => 0b0111#4 ++ regBits sr ++ regBits base ++ offset6
  | .trapGetc => 0xF020#16
  | .trapOut => 0xF021#16
  | .trapPuts => 0xF022#16
  | .trapIn => 0xF023#16
  | .trapPutsp => 0xF024#16
  | .trapHalt => 0xF025#16
  | .trapUnrecognized v => 0xF0#8 ++ v
  | .rti => 0x8000#16
  | .res => 0xD000#16

/-- The bits of its word that the decoder reads for an instruction: all but those R63 marks x, which are ignored (R65). -/
def usedBits : Instr → Word
  | .addReg _ _ _ | .andReg _ _ _ => 0xFFE7#16
  | .not _ _ => 0xFFC0#16
  | .ret | .jmp _ => 0xF1C0#16
  | .jsrr _ => 0xF9C0#16
  | .trapGetc | .trapOut | .trapPuts | .trapIn | .trapPutsp | .trapHalt | .trapUnrecognized _ => 0xF0FF#16
  | .rti | .res => 0xF000#16
  | .addImm _ _ _ | .andImm _ _ _ | .br _ _ | .jsr _ | .ld _ _ | .ldi _ _ | .ldr _ _ _ | .lea _ _ | .st _ _ | .sti _ _
  | .str _ _ _ => 0xFFFF#16

/-- The instruction the decoder reads from a word numbered as spec/opcode_table.json numbers it. Every instruction is one
16-bit cell (R60), so a longer or out-of-range word is none. -/
def decodeTableWord (nbits w : Nat) : Option Instr :=
  if nbits ≤ 16 ∧ w < 2 ^ nbits then (decode (BitVec.ofNat 16 w)).toOption else none

end Sys2Proof
end

