-- ==== Sys2Proof/Machine/Operands.lean ====
section
/-! DEFINITION. Operand assembly: extension of fields, bytes of a word, and the effective addresses
(spec/00_scope.md R9, R10; spec/30_encoding.md R64; spec/42_load_store.md R107). All addresses wrap modulo 2^16 (R41). -/

namespace Sys2Proof.Machine

/-- `sext_N` of R10: two's-complement extension of an N-bit field to 16 bits, for N in 5, 6, 9, 11. -/
def sext {n : Nat} (f : BitVec n) : Word := f.signExtend 16

/-- `zext_16` of R10, of an 8-bit character. -/
def zext16 (c : Byte) : Word := c.setWidth 16

/-- `v[7:0]`. -/
def lowByte (v : Word) : Byte := v.extractLsb' 0 8

/-- `v[15:8]`. -/
def highByte (v : Word) : Byte := v.extractLsb' 8 8

/-- The PC-relative address of BR, LD, LDI, LEA, ST, STI: `pc + sext_9(instr[8:0])` (R107, R90); `pc` is the incremented PC. -/
def pcRelative9 (pc : Word) (offset9 : BitVec 9) : Word := pc + sext offset9

/-- The target of JSR: `pc + sext_11(instr[10:0])` (R93). -/
def pcRelative11 (pc : Word) (offset11 : BitVec 11) : Word := pc + sext offset11

/-- The base + offset address of LDR and STR: `x[BaseR] + sext_6(instr[5:0])` (R107). -/
def baseOffset6 (base : Word) (offset6 : BitVec 6) : Word := base + sext offset6

/-- The bytes PUTS writes for one cell: the low byte (spec/43_trap.md R123). -/
def putsBytes (w : Word) : List Byte := [lowByte w]

/-- The bytes PUTSP writes for one cell: the low byte always, then the high byte if it is not zero (R125). -/
def putspBytes (w : Word) : List Byte :=
  if highByte w = 0#8 then [lowByte w] else [lowByte w, highByte w]

end Sys2Proof.Machine
end

