-- ==== Sys2Proof/Config.lean ====
section
/-! DEFINITION. What an implementation fixes: the parameter values of spec/00_scope.md R7, and the values the spec leaves
open, as constants without a body (log 2, log 15). -/

namespace Sys2Proof

/-- `EOF_POLICY` of R7: what `InChar` does when the input sequence has ended (spec/20_memory.md R44). -/
inductive EofPolicy where
  /-- the calling instruction never completes; the value the spec takes -/
  | block
  /-- `InChar` returns `EOF_SENTINEL` -/
  | sentinel
  deriving DecidableEq, Repr

/-- The failure classes that R164 gives a nonzero exit status of their own. -/
inductive FailureClass where
  /-- an argument-count error, before the engine runs -/
  | args
  /-- an image-load failure, before the engine runs -/
  | load
  /-- a run that ends FAULTED(UnusedOpcode) -/
  | reserved
  /-- a run that ends FAULTED(BadOpcode), which no run does -/
  | badOpcode
  /-- a run that ends FAULTED(BadTrap) -/
  | badTrap
  deriving DecidableEq, Repr

namespace Config

/-- `MEM_CELLS` of R7. -/
def memCells : Nat := 65536

/-- `KBSR_ADDR` of R7: the keyboard status register. -/
def kbsrAddr : Word := 0xFE00#16

/-- `KBDR_ADDR` of R7: the keyboard data register. -/
def kbdrAddr : Word := 0xFE02#16

/-- `KBSR_READY` of R7: exactly bit 15. -/
def kbsrReady : Word := 0x8000#16

/-- `PC_RESET` of R7 (the spec's decision D6; log 6). -/
def pcReset : Word := 0x3000#16

/-- `COND_RESET` of R7: no flag active (the spec's decision D5; log 7). -/
def condReset : BitVec 3 := 0b000#3

/-- `EOF_SENTINEL` of R7, 16 bits, used only under `EofPolicy.sentinel`. -/
def eofSentinel : Word := 0xFFFF#16

/-- FREE VALUE (log 2): the host's answer to the request for character number `n` of its input sequence, counted from 0, where
the state's `input` does not list that character: the character, or none if the host never answers (R163 lets it delay
without bound; R176, R177). The sequence belongs to the host (R32); nothing can be proved about an answer. -/
opaque hostChar : Nat → Option Byte

/-- FREE VALUE (log 15): one less than the exit status of a failure class, so that the status is nonzero. -/
opaque exitCodeBelow : FailureClass → Nat

/-- The `EXIT_CODE_*` parameters of R164, each nonzero and otherwise open. -/
def exitCode (c : FailureClass) : Nat := exitCodeBelow c + 1

end Config

end Sys2Proof
end

