-- ==== Sys2Proof/Machine/State.lean ====
section
/-! DEFINITION. The state of the engine as plain data (spec/10_state.md R20 to R35), the ways a step can stop, and the state
right after reset (spec/70_reset_and_hazards.md R170). INVENTORY.md, State, lists every field with its rule. -/

namespace Sys2Proof.Machine

/-- The two reserved opcodes (spec/44_reserved.md). -/
inductive ReservedOpcode where
  | rti
  | res
  deriving DecidableEq, Repr

/-- The reasons a FAULTED state records (spec/60_exceptions.md R150). -/
inductive FaultReason where
  /-- raised by RTI and RES, always (R140, R141) -/
  | unusedOpcode (op : ReservedOpcode)
  /-- raised by TRAP with a selector outside 0x20..0x25 (R127) -/
  | badTrap (selector : BitVec 8)
  /-- the source's "(unrecognized opcode value)"; unreachable (R68) -/
  | badOpcode
  deriving DecidableEq, Repr

/-- The run state `run` (R30). -/
inductive RunState where
  | running
  | halted
  | faulted (reason : FaultReason)
  deriving DecidableEq, Repr

/-- Memory: the cells that hold something other than 0x0000, as (address, 16-bit cell) pairs with rising addresses (R31, R40;
log 1). The smallest addressable unit is the 16-bit cell: no address names a byte (R40). -/
abbrev Memory := List (Nat × Word)

/-- The engine's state (R20 to R34) with the host's and the launch's data that a step reads (INVENTORY.md, State). -/
structure State where
  /-- R0 to R7 (R20) -/
  regs : Vector Word 8
  /-- the program counter (R23); while an instruction executes it is the incremented PC (R24) -/
  pc : Word
  /-- the condition register: bit 2 N, bit 1 Z, bit 0 P (R25) -/
  cond : BitVec 3
  /-- the run state (R30) -/
  run : RunState
  /-- the 65536 cells (R31) -/
  mem : Memory
  /-- the characters the host has supplied and the engine has not consumed, next one first (R163; log 2) -/
  input : List Byte
  /-- how many characters of the host's sequence have been consumed (R32) -/
  inputPos : Nat
  /-- whether the host has ended the sequence after `input` (R44, R163; log 2) -/
  inputEnded : Bool
  /-- the launch parameter `EOF_POLICY` (R7, R44; log 3) -/
  eofPolicy : EofPolicy
  /-- the output stream since reset, oldest first (R33) -/
  output : List Byte
  /-- how many bytes of `output` the last Flush made visible to the host (R13, R128; log 14) -/
  flushed : Nat
  deriving DecidableEq, Repr

/-- Why no next state exists. None of these is the engine's own FAULTED, which is a value of `State.run` reached by a next
state. -/
inductive Fault where
  /-- raised by a step in HALTED: the engine takes a step only in RUNNING (R30); safe (log 4) -/
  | halted
  /-- raised by a step in FAULTED: the engine takes a step only in RUNNING (R30); safe (log 4) -/
  | faulted (reason : FaultReason)
  /-- raised by `InChar` (GETC, IN, a read of 0xFE00, a fetch there) when the input has ended under `EOF_POLICY = Block`: the
  instruction never completes and `run` stays RUNNING (R44); safe (log 3) -/
  | inputExhausted
  /-- raised by `InChar` (GETC, IN, a read of 0xFE00, a fetch there) when the input has not ended and the host never answers the
  request: the wait has no bound and `run` stays RUNNING (R176, R177, U9 of spec/93_implementation_defined.md); safe (log 2) -/
  | inputUnanswered
  /-- raised by PUTS and PUTSP when no cell is zero: the routine never ends (R123, R125); safe (log 12) -/
  | endlessString
  deriving DecidableEq, Repr

/-- Why an instruction has no meaning. -/
inductive Refusal where
  /-- raised by an arm of `exec` whose instruction is not modelled; no arm raises it; safe -/
  | notModelled (mnemonic : String)
  deriving DecidableEq, Repr

/-- The state right after reset (R170) with no image loaded; `HostInterface.loadImage` places one (R171). The values of
`input`, `inputEnded` and `flushed` are DESIGN CHOICE (log 2, log 14); `eofPolicy` is the value R7 takes (log 3). -/
def State.reset : State where
  regs := Vector.replicate 8 0x0000#16
  pc := Config.pcReset
  cond := Config.condReset
  run := .running
  mem := []
  input := []
  inputPos := 0
  inputEnded := false
  eofPolicy := .block
  output := []
  flushed := 0

end Sys2Proof.Machine
end

