-- ==== Sys2Proof/Machine/Ops.lean ====
section
/-! DEFINITION. The named operations over registers, memory, the keyboard cells, the console and the run state
(spec/00_scope.md R11 to R13; spec/20_memory.md; spec/43_trap.md R128, R129; spec/60_exceptions.md R151). -/

namespace Sys2Proof.Machine

/-! ### Memory as data -/

/-- What an address that `Memory` does not list reads as: the reset contents, 0x0000 (R31). -/
def Memory.unlisted : Word := 0x0000#16

/-- The stored contents of a cell. -/
def Memory.read : Memory → Nat → Word
  | [], _ => Memory.unlisted
  | (k, v) :: rest, a => if k = a then v else Memory.read rest a

/-- Memory with no entry at an address. -/
def Memory.without (m : Memory) (a : Nat) : Memory := m.filter (fun cell => cell.1 != a)

/-- Memory with a new entry, put before the first entry of a higher address. -/
def Memory.place (a : Nat) (v : Word) : Memory → Memory
  | [] => [(a, v)]
  | cell :: rest => if a < cell.1 then (a, v) :: cell :: rest else cell :: Memory.place a v rest

/-- Store one cell; storing what an unlisted address reads as removes the entry, so the canonical form is kept. -/
def Memory.write (m : Memory) (a : Nat) (v : Word) : Memory :=
  if v = Memory.unlisted then m.without a else Memory.place a v (m.without a)

/-- The canonical form: addresses strictly rising, all below 65536 (R40), no entry equal to what an unlisted address reads as. -/
abbrev Memory.wf (m : Memory) : Prop :=
  m.Pairwise (fun x y => x.1 < y.1) ∧ ∀ cell ∈ m, cell.1 < Config.memCells ∧ cell.2 ≠ Memory.unlisted

/-! ### Registers -/

/-- `x[i]` (R11). -/
def State.reg (s : State) (r : Reg) : Word := s.regs[r]

/-- `x[i] <- v` (R11). No register is hardwired (R20). -/
def setReg (r : Reg) (v : Word) (s : State) : State := { s with regs := s.regs.set r v }

/-- `pc <- target` (R11). -/
def setPc (target : Word) (s : State) : State := { s with pc := target }

/-! ### Console input and output -/

/-- The outcome of an operation that may never complete: a value with the state after it, or why it does not complete. -/
abbrev Access (α : Type) := Except Fault (α × State)

/-- Go on with the value and the state of an access; stop where it stops. -/
def afterAccess {α : Type} (r : Access α) (k : α → State → Host.Outcome State Fault Refusal) :
    Host.Outcome State Fault Refusal :=
  match r with
  | .ok (v, s) => k v s
  | .error f => .fault f

/-- `InChar()` (R13, R32, R129): the next character of the host's sequence, zero-extended (D12; log 10). While the sequence has
not ended, the host's answer to a request for a character not yet supplied is the free value `Config.hostChar`: with no answer the
wait never ends (R176, R177; log 2). When the sequence has ended, `EOF_POLICY` decides: Block never completes, Sentinel returns the
16-bit sentinel and consumes nothing (R44; log 3). -/
def inChar (s : State) : Access Word :=
  match s.input with
  | c :: rest => .ok (zext16 c, { s with input := rest, inputPos := s.inputPos + 1 })
  | [] =>
    if s.inputEnded then
      match s.eofPolicy with
      | .block => .error .inputExhausted
      | .sentinel => .ok (Config.eofSentinel, s)
    else
      match Config.hostChar s.inputPos with
      | some c => .ok (zext16 c, { s with inputPos := s.inputPos + 1 })
      | none => .error .inputUnanswered

/-- `OutChar(b)`: append to the output stream (R128). -/
def outChar (b : Byte) (s : State) : State := { s with output := s.output ++ [b] }

/-- A run of `OutChar` calls, in order. -/
def outBytes (bs : List Byte) (s : State) : State := { s with output := s.output ++ bs }

/-- `Flush()`: every appended byte is visible to the host (R13, R128; log 14). -/
def flush (s : State) : State := { s with flushed := s.output.length }

/-! ### Memory accesses -/

/-- `RawRead(a)`: the stored word, with no side effect at any address (R47). -/
def State.cell (s : State) (a : Word) : Word := s.mem.read a.toNat

/-- `MemWrite(a, 1, v)`: a plain store at every address (R46). -/
def memWrite (a v : Word) (s : State) : State := { s with mem := s.mem.write a.toNat v }

/-- `KeyboardStatusRead()` (R43): one character into 0xFE02, then exactly bit 15 into 0xFE00. -/
def keyboardStatusRead (s : State) : Except Fault State :=
  match inChar s with
  | .ok (c, s1) => .ok (memWrite Config.kbsrAddr Config.kbsrReady (memWrite Config.kbdrAddr c s1))
  | .error f => .error f

/-- `MemRead(a, 1)` (R42): at 0xFE00 the keyboard side effect first, then the stored word. -/
def memRead (a : Word) (s : State) : Access Word :=
  if a = Config.kbsrAddr then
    match keyboardStatusRead s with
    | .ok s1 => .ok (s1.cell a, s1)
    | .error f => .error f
  else .ok (s.cell a, s)

/-- The fetch of R72: `MemRead(pc, 1)` (R57), then `pc <- pc + 1` modulo 2^16 (R24). -/
def fetch (s : State) : Access Word :=
  match memRead s.pc s with
  | .ok (w, s1) => .ok (w, setPc (s.pc + 1#16) s1)
  | .error f => .error f

/-! ### Strings of cells -/

/-- How many cells from `a` on, with the address wrapping, come before the first zero cell; none if the first `fuel` cells hold
no zero. -/
def stringLength (m : Memory) : Nat → Word → Option Nat
  | 0, _ => none
  | fuel + 1, a =>
    if m.read a.toNat = 0x0000#16 then some 0 else (stringLength m fuel (a + 1#16)).map (· + 1)

/-- The bytes that `emit` gives for the `n` cells from `a` on, in order. -/
def stringBytes (emit : Word → List Byte) (m : Memory) : Nat → Word → List Byte
  | 0, _ => []
  | n + 1, a => emit (m.read a.toNat) ++ stringBytes emit m n (a + 1#16)

/-- The loop of PUTS and PUTSP (R123, R125): the cells from `x[0]` until a zero cell, then a flush. All 65536 cells without a
zero: the routine never ends (D13; log 12). -/
def writeString (emit : Word → List Byte) (s : State) : Host.Outcome State Fault Refusal :=
  match stringLength s.mem Config.memCells (s.reg 0) with
  | some n => .next (flush (outBytes (stringBytes emit s.mem n (s.reg 0)) s))
  | none => .fault .endlessString

/-! ### The run state -/

/-- `run <- HALTED` (R126). -/
def halt (s : State) : State := { s with run := .halted }

/-- Taking a fault, `raise Fault(reason)` (R151): `run <- FAULTED(reason)` and nothing else. No register saves the pc or a status,
no mode changes and control goes to no handler (R154); there is no return from it (R155). -/
def raiseFault (reason : FaultReason) (s : State) : State := { s with run := .faulted reason }

end Sys2Proof.Machine
end

