-- ==== Sys2Proof/Machine/Control.lean ====
section
/-! DEFINITION. BR, JMP, RET, JSR, JSRR (spec/41_control.md R90 to R95). The state's `pc` is the incremented PC. -/

namespace Sys2Proof.Machine

/-- R90 -/
def execBr (nzp : BitVec 3) (offset9 : BitVec 9) (s : State) : Host.Outcome State Fault Refusal :=
  .next (if nzp &&& s.cond ≠ 0#3 then setPc (pcRelative9 s.pc offset9) s else s)

/-- R92: `pc <- x[7]` -/
def execRet (s : State) : Host.Outcome State Fault Refusal :=
  .next (setPc (s.reg 7) s)

/-- R91 -/
def execJmp (base : Reg) (s : State) : Host.Outcome State Fault Refusal :=
  .next (setPc (s.reg base) s)

/-- The link of JSR and JSRR: `x[7] <- pc`. -/
def linkR7 (s : State) : State := setReg 7 s.pc s

/-- R93 -/
def execJsr (offset11 : BitVec 11) (s : State) : Host.Outcome State Fault Refusal :=
  .next (setPc (pcRelative11 s.pc offset11) (linkR7 s))

/-- R94: the base register is read after the write to R7. -/
def execJsrr (base : Reg) (s : State) : Host.Outcome State Fault Refusal :=
  .next (setPc ((linkR7 s).reg base) (linkR7 s))

end Sys2Proof.Machine
end

