-- ==== Sys2Proof/Machine/Flags.lean ====
section
/-! DEFINITION. The condition register (spec/10_state.md R25 to R28). -/

namespace Sys2Proof.Machine

/-- The flag of a result, one-hot: N = 0b100 if bit 15 is set, else Z = 0b010 if it is zero, else P = 0b001 (R25, R27). -/
def condOf (v : Word) : BitVec 3 :=
  if v.getLsbD 15 then 0b100#3 else if v = 0x0000#16 then 0b010#3 else 0b001#3

/-- `setcc(i)` (R27): from the current value of the register, after the write to it. -/
def setcc (r : Reg) (s : State) : State := { s with cond := condOf (s.reg r) }

/-- `x[DR] <- v; setcc(DR)`: the end of every flag-setting instruction (R28). -/
def writeResult (dr : Reg) (v : Word) (s : State) : State := setcc dr (setReg dr v s)

end Sys2Proof.Machine
end

