-- ==== Sys2Proof/Machine/LoadStore.lean ====
section
/-! DEFINITION. LD, LDI, LDR, LEA, ST, STI, STR (spec/42_load_store.md R100 to R107). The state's `pc` is the incremented PC. -/

namespace Sys2Proof.Machine

/-- The loaded word goes to DR unchanged and sets the flags (R107). -/
def loadFrom (dr : Reg) (a : Word) (s : State) : Host.Outcome State Fault Refusal :=
  afterAccess (memRead a s) fun v s1 => .next (writeResult dr v s1)

/-- R100 -/
def execLd (dr : Reg) (offset9 : BitVec 9) (s : State) : Host.Outcome State Fault Refusal :=
  loadFrom dr (pcRelative9 s.pc offset9) s

/-- R101: two reads, the pointer first. -/
def execLdi (dr : Reg) (offset9 : BitVec 9) (s : State) : Host.Outcome State Fault Refusal :=
  afterAccess (memRead (pcRelative9 s.pc offset9) s) fun p s1 => loadFrom dr p s1

/-- R102 -/
def execLdr (dr base : Reg) (offset6 : BitVec 6) (s : State) : Host.Outcome State Fault Refusal :=
  loadFrom dr (baseOffset6 (s.reg base) offset6) s

/-- R103: no memory access. -/
def execLea (dr : Reg) (offset9 : BitVec 9) (s : State) : Host.Outcome State Fault Refusal :=
  .next (writeResult dr (pcRelative9 s.pc offset9) s)

/-- R104 -/
def execSt (sr : Reg) (offset9 : BitVec 9) (s : State) : Host.Outcome State Fault Refusal :=
  .next (memWrite (pcRelative9 s.pc offset9) (s.reg sr) s)

/-- R105: the pointer read is a `MemRead`. -/
def execSti (sr : Reg) (offset9 : BitVec 9) (s : State) : Host.Outcome State Fault Refusal :=
  afterAccess (memRead (pcRelative9 s.pc offset9) s) fun p s1 => .next (memWrite p (s1.reg sr) s1)

/-- R106 -/
def execStr (sr base : Reg) (offset6 : BitVec 6) (s : State) : Host.Outcome State Fault Refusal :=
  .next (memWrite (baseOffset6 (s.reg base) offset6) (s.reg sr) s)

end Sys2Proof.Machine
end

