-- ==== Sys2Proof/Machine/Reserved.lean ====
section
/-! DEFINITION. The reserved opcodes (spec/44_reserved.md R140, R141): each takes its fault. -/

namespace Sys2Proof.Machine

/-- R140 -/
def execRti (s : State) : Host.Outcome State Fault Refusal :=
  .next (raiseFault (.unusedOpcode .rti) s)

/-- R141 -/
def execRes (s : State) : Host.Outcome State Fault Refusal :=
  .next (raiseFault (.unusedOpcode .res) s)

end Sys2Proof.Machine
end

