-- ==== Sys2Proof/Machine/Trap.lean ====
section
/-! DEFINITION. The trap routines (spec/43_trap.md R120 to R129). TRAP writes neither R7 nor `cond` (D8, D9; log 10) and leaves
`pc` at the incremented PC. -/

namespace Sys2Proof.Machine

/-- R121 -/
def execTrapGetc (s : State) : Host.Outcome State Fault Refusal :=
  afterAccess (inChar s) fun c s1 => .next (flush (setReg 0 c s1))

/-- R122: no flush. -/
def execTrapOut (s : State) : Host.Outcome State Fault Refusal :=
  .next (outChar (lowByte (s.reg 0)) s)

/-- R123 -/
def execTrapPuts (s : State) : Host.Outcome State Fault Refusal :=
  writeString putsBytes s

/-- R124: the echo is the character's low byte; no prompt (D14; log 10), no flush. -/
def execTrapIn (s : State) : Host.Outcome State Fault Refusal :=
  afterAccess (inChar s) fun c s1 => .next (setReg 0 c (outChar (lowByte c) s1))

/-- R125 -/
def execTrapPutsp (s : State) : Host.Outcome State Fault Refusal :=
  writeString putspBytes s

/-- R126: no message (D15; log 10). -/
def execTrapHalt (s : State) : Host.Outcome State Fault Refusal :=
  .next (halt (flush s))

/-- R127 (D10; log 11) -/
def execTrapUnrecognized (trapvect8 : BitVec 8) (s : State) : Host.Outcome State Fault Refusal :=
  .next (raiseFault (.badTrap trapvect8) s)

end Sys2Proof.Machine
end

