-- ==== Sys2Proof/Machine/Step.lean ====
section
/-! DEFINITION. One step of the engine (spec/30_encoding.md R72), and how the host's check places the next instruction. -/

namespace Sys2Proof.Machine

/-- R72: taken only in RUNNING (R30): fetch, increment, decode, dispatch. A word the decoder rejected would take the BadOpcode
fault; R68 says that there is none. -/
def step (s : State) : Host.Outcome State Fault Refusal :=
  match s.run with
  | .running =>
    afterAccess (fetch s) fun w s1 =>
      match decode w with
      | .ok i => exec i s1
      | .error .badOpcode => .next (raiseFault .badOpcode s1)
  | .halted => .fault .halted
  | .faulted reason => .fault (.faulted reason)

/-- The state with an instruction word stored where `step` fetches next, and RUNNING so that a step is taken. At pc = 0xFE00 no
word but 0x8000 can be fetched (R57), so there the pc is put at the entry point first (log 19). -/
def State.withFetchWord (s : State) (nbits w : Nat) : State :=
  let pc := if s.pc = Config.kbsrAddr then Config.pcReset else s.pc
  memWrite pc (BitVec.ofNat 16 (w % 2 ^ nbits)) { s with pc := pc, run := .running }

end Sys2Proof.Machine
end

