-- ==== Sys2Proof/Machine/HostInterface.lean ====
section
/-! DEFINITION. What the host does before and around a run: the image it places, the input it supplies or ends, and the exit
status it reads (spec/60_exceptions.md R163, R164; spec/70_reset_and_hazards.md R171, R172). -/

namespace Sys2Proof.Machine

/-- Big-endian words of a byte sequence; a final single byte is no word (R171, D19; log 16). -/
def imageWords : List Byte → List Word
  | hi :: lo :: rest => (hi ++ lo) :: imageWords rest
  | _ => []

/-- Word `k` at `mem[o + k]`; words that would fall above 0xFFFF are not loaded and nothing wraps (R171). -/
def placeWords : Nat → List Word → Memory → Memory
  | _, [], m => m
  | a, w :: ws, m => if a < Config.memCells then placeWords (a + 1) ws (m.write a w) else m

/-- The state in which the run of an image starts (R170, R171): reset, with the image placed in zero memory. The origin decides
only where the words go (R172). A byte sequence with no whole origin is a load failure, before the engine runs (log 16). -/
def loadImage : List Byte → Except FailureClass State
  | hi :: lo :: rest =>
    .ok { State.reset with mem := placeWords (hi ++ lo).toNat (imageWords rest) State.reset.mem }
  | _ => .error .load

/-- The host supplies one more character (R163). -/
def supplyInput (c : Byte) (s : State) : State := { s with input := s.input ++ [c] }

/-- The host ends the input sequence (R163, R44). -/
def endInput (s : State) : State := { s with inputEnded := true }

/-- The bytes the host is sure to see: those appended before the last flush (R128; log 14). -/
def visibleOutput (s : State) : List Byte := s.output.take s.flushed

/-- The failure class of a fault (R164). -/
def failureClass : FaultReason → FailureClass
  | .unusedOpcode _ => .reserved
  | .badTrap _ => .badTrap
  | .badOpcode => .badOpcode

/-- The exit status of a run that ends (R164): 0 for HALTED, a nonzero open value for FAULTED (D18; log 15). -/
def exitStatus : RunState → Option Nat
  | .running => none
  | .halted => some 0
  | .faulted reason => some (Config.exitCode (failureClass reason))

end Sys2Proof.Machine
end

