-- ==== Sys2Proof/Safety.lean ====
section
/-! DEFINITION. The terms in which claims speak of a run: what an instruction may write, the invariant of a run, and what an
abort may leave. -/

namespace Sys2Proof.Machine

/-! ### What each instruction writes and reads -/

/-- The general register an instruction writes (spec/10_state.md R21, exhaustively). -/
def destination : Instr → Option Reg
  | .addReg dr _ _ | .addImm dr _ _ | .andReg dr _ _ | .andImm dr _ _ | .not dr _ => some dr
  | .ld dr _ | .ldi dr _ | .ldr dr _ _ | .lea dr _ => some dr
  | .jsr _ | .jsrr _ => some 7
  | .trapGetc | .trapIn => some 0
  | .br _ _ | .ret | .jmp _ | .st _ _ | .sti _ _ | .str _ _ _ | .trapOut | .trapPuts | .trapPutsp | .trapHalt
  | .trapUnrecognized _ | .rti | .res => none

/-- The instructions that write `cond` (R28, exhaustively). -/
def setsFlags : Instr → Bool
  | .addReg _ _ _ | .addImm _ _ _ | .andReg _ _ _ | .andImm _ _ _ | .not _ _ | .ld _ _ | .ldi _ _ | .ldr _ _ _ | .lea _ _ => true
  | .br _ _ | .ret | .jmp _ | .jsr _ | .jsrr _ | .st _ _ | .sti _ _ | .str _ _ _ | .trapGetc | .trapOut | .trapPuts | .trapIn
  | .trapPutsp | .trapHalt | .trapUnrecognized _ | .rti | .res => false

/-- The instructions that may overwrite the incremented PC: BR, JMP (RET), JSR and JSRR (R24). -/
def mayJump : Instr → Bool
  | .br _ _ | .ret | .jmp _ | .jsr _ | .jsrr _ => true
  | .addReg _ _ _ | .addImm _ _ _ | .andReg _ _ _ | .andImm _ _ _ | .not _ _ | .ld _ _ | .ldi _ _ | .ldr _ _ _ | .lea _ _
  | .st _ _ | .sti _ _ | .str _ _ _ | .trapGetc | .trapOut | .trapPuts | .trapIn | .trapPutsp | .trapHalt
  | .trapUnrecognized _ | .rti | .res => false

/-- The instructions that may append to the output stream: OUT, PUTS, IN and PUTSP (spec/60_exceptions.md R159). -/
def mayOutput : Instr → Bool
  | .trapOut | .trapPuts | .trapIn | .trapPutsp => true
  | .addReg _ _ _ | .addImm _ _ _ | .andReg _ _ _ | .andImm _ _ _ | .not _ _ | .br _ _ | .ret | .jmp _ | .jsr _ | .jsrr _
  | .ld _ _ | .ldi _ _ | .ldr _ _ _ | .lea _ _ | .st _ _ | .sti _ _ | .str _ _ _ | .trapGetc | .trapHalt
  | .trapUnrecognized _ | .rti | .res => false

/-- A pointer read at `a` and then an access at the pointer: the addresses, as far as the reads complete. -/
def pointerAt (a : Word) (s : State) : Option Word :=
  match memRead a s with
  | .ok (p, _) => some p
  | .error _ => none

/-- The addresses an instruction reads through `MemRead` after its fetch, in order (spec/20_memory.md R48). -/
def dataReads (i : Instr) (s : State) : List Word :=
  match i with
  | .ld _ offset9 => [pcRelative9 s.pc offset9]
  | .ldi _ offset9 => pcRelative9 s.pc offset9 :: (pointerAt (pcRelative9 s.pc offset9) s).toList
  | .ldr _ base offset6 => [baseOffset6 (s.reg base) offset6]
  | .sti _ offset9 => [pcRelative9 s.pc offset9]
  | .addReg _ _ _ | .addImm _ _ _ | .andReg _ _ _ | .andImm _ _ _ | .not _ _ | .br _ _ | .ret | .jmp _ | .jsr _ | .jsrr _
  | .lea _ _ | .st _ _ | .str _ _ _ | .trapGetc | .trapOut | .trapPuts | .trapIn | .trapPutsp | .trapHalt
  | .trapUnrecognized _ | .rti | .res => []

/-- The address an instruction stores to through `MemWrite` (R48). -/
def storeAddress (i : Instr) (s : State) : Option Word :=
  match i with
  | .st _ offset9 => some (pcRelative9 s.pc offset9)
  | .sti _ offset9 => pointerAt (pcRelative9 s.pc offset9) s
  | .str _ base offset6 => some (baseOffset6 (s.reg base) offset6)
  | .addReg _ _ _ | .addImm _ _ _ | .andReg _ _ _ | .andImm _ _ _ | .not _ _ | .br _ _ | .ret | .jmp _ | .jsr _ | .jsrr _
  | .ld _ _ | .ldi _ _ | .ldr _ _ _ | .lea _ _ | .trapGetc | .trapOut | .trapPuts | .trapIn | .trapPutsp | .trapHalt
  | .trapUnrecognized _ | .rti | .res => none

/-- Whether an instruction asks the host for a character: GETC, IN, and a read of 0xFE00 (R32, R152). -/
def asksForInput (i : Instr) (s : State) : Prop :=
  i = .trapGetc ∨ i = .trapIn ∨ 0xFE00#16 ∈ dataReads i s

/-! ### Values the rules name -/

/-- The tri-state flag of a result read as a signed number (spec/00_scope.md R9, R15): negative 0b100, zero 0b010,
positive 0b001. -/
def signFlag (v : Word) : BitVec 3 :=
  if v.toInt < 0 then 0b100#3 else if v.toInt = 0 then 0b010#3 else 0b001#3

/-- The two keyboard cells after a read of 0xFE00 delivered `c` and left `s1` (R43): 0xFE02 holds `c`, 0xFE00 holds 0x8000. -/
def keyboardLatched (c : Word) (s1 : State) : State :=
  memWrite 0xFE00#16 0x8000#16 (memWrite 0xFE02#16 c s1)

/-! ### The invariant of a run -/

/-- The values `cond` ever holds: no flag before the first flag update, and one flag after it (R26). -/
def CondLegal (c : BitVec 3) : Prop := c = 0b000#3 ∨ c = 0b100#3 ∨ c = 0b010#3 ∨ c = 0b001#3

/-- Exactly one flag is active (R26). -/
def OneFlagActive (c : BitVec 3) : Prop := c = 0b100#3 ∨ c = 0b010#3 ∨ c = 0b001#3

/-- The invariant: memory is in canonical form, `cond` has at most one flag, and no more bytes are flushed than appended. -/
def Inv (s : State) : Prop := s.mem.wf ∧ CondLegal s.cond ∧ s.flushed ≤ s.output.length

/-! ### The end of a run -/

/-- The bytes each string routine writes for a cell. -/
def stringEmit : Instr → Option (Word → List Byte)
  | .trapPuts => some putsBytes
  | .trapPutsp => some putspBytes
  | .addReg _ _ _ | .addImm _ _ _ | .andReg _ _ _ | .andImm _ _ _ | .not _ _ | .br _ _ | .ret | .jmp _ | .jsr _ | .jsrr _
  | .ld _ _ | .ldi _ _ | .ldr _ _ _ | .lea _ _ | .st _ _ | .sti _ _ | .str _ _ _ | .trapGetc | .trapOut | .trapIn
  | .trapHalt | .trapUnrecognized _ | .rti | .res => none

/-- `t` is a state in which a host abort may leave a RUNNING engine that stands at `s` (spec/60_exceptions.md R165; log 17): between
two instructions or during an input wait nothing of the next instruction has happened; during a PUTS or PUTSP that never ends some
of its bytes have been appended. A run that has ended can no longer be aborted (R177). -/
def MayAbortWith (s t : State) : Prop :=
  s.run = .running ∧
  (t = s ∨
    ∃ w s1 i emit n k, fetch s = .ok (w, s1) ∧ decode w = .ok i ∧ stringEmit i = some emit ∧
      step s = .fault .endlessString ∧
      t = outBytes ((stringBytes emit s1.mem n (s1.reg 0)).take k) s1)

end Sys2Proof.Machine
end

