-- ==== Sys2Proof/Certificates/Slice0/Obligations.lean ====
section
/-! DEFINITION. The statements for the provers. OBLIGATIONS.json lists them with their tiers, titles and rules. -/

open Sys2Proof Sys2Proof.Machine

/-- Right after reset every register, flag, cell, position and stream has its stated value (R20, R23, R25, R30, R31, R32,
R33, R170). R0 to R7 and all cells are 0x0000, pc is 0x3000 (the spec's decision D6, log 6), cond is 0b000 (D5, log
7), run is RUNNING, no character is consumed and no byte is output. The model's own fields: EOF_POLICY is Block (D11,
log 3), and input = [], inputEnded = false (log 2), flushed = 0 (log 14) are DESIGN CHOICE. -/
def Obligations.ResetStateValues : Prop :=
  (∀ r, State.reset.reg r = 0x0000#16) ∧ State.reset.pc = 0x3000#16 ∧ State.reset.cond = 0b000#3 ∧
  State.reset.run = .running ∧ (∀ a, State.reset.cell a = 0x0000#16) ∧ State.reset.inputPos = 0 ∧
  State.reset.output = [] ∧ State.reset.eofPolicy = .block ∧ State.reset.input = [] ∧
  State.reset.inputEnded = false ∧ State.reset.flushed = 0

/-- Loading an image gives the reset state with word k big-endian at origin + k and zeros elsewhere (R170, R171, R172).
For an image of at least two bytes the launched state differs from reset in memory only, memory is canonical, each
whole word k whose address origin + k is below 65536 stands there big-endian, and every other cell is zero; a trailing
single byte is not loaded (D19, log 16). A byte sequence with no whole origin is a load failure (the model's choice,
log 16). -/
def Obligations.LaunchedImageLiesInZeroMemory : Prop :=
  (∀ (hi lo : Byte) (rest : List Byte), ∃ s, loadImage (hi :: lo :: rest) = .ok s ∧
    { s with mem := [] } = State.reset ∧ s.mem.wf ∧
    (∀ k (h : 2 * k + 1 < rest.length), (hi ++ lo).toNat + k < 65536 →
      s.mem.read ((hi ++ lo).toNat + k) = rest[2 * k] ++ rest[2 * k + 1]) ∧
    (∀ a : Word, (∀ k, 2 * k + 1 < rest.length → a.toNat ≠ (hi ++ lo).toNat + k) → s.cell a = 0x0000#16)) ∧
  loadImage [] = .error .load ∧ ∀ b, loadImage [b] = .error .load

/-- Decoding the encoding of any well-formed instruction gives the instruction back (R61, R62, R63, R64, R68). For every
well-formed instruction, with every operand at every value its field admits, decode of encode is that instruction. The
opcode numbers and positions are the spec's adopted encoding (D2, log 9); RET names the words of JMP with BaseR = 7
(log 5). -/
def Obligations.DecodeEncodeRoundTrip : Prop :=
  ∀ i : Instr, i.wellFormed = true → decode (encode i) = .ok i

/-- Every 16-bit word decodes to a well-formed instruction whose encoding agrees on all bits not ignored (R65, R68). The
decoder is total, and the word and the canonical encoding of what it decodes to differ at most in the bits the spec
ignores (D16, log 13). With the round trip: the decoded instruction is the only one. -/
def Obligations.EveryWordDecodesToItsRow : Prop :=
  ∀ w : Word, ∃ i, decode w = .ok i ∧ i.wellFormed = true ∧ w &&& usedBits i = encode i &&& usedBits i

/-- Two words that agree on the bits of an instruction's fields decode alike (R65). If a word decodes to an instruction,
every word that differs from it only in bits that R63 marks ignored for that instruction decodes to the same
instruction (D16, log 13). -/
def Obligations.IgnoredBitsHaveNoEffect : Prop :=
  ∀ (w w' : Word) (i : Instr), decode w = .ok i → w &&& usedBits i = w' &&& usedBits i → decode w' = .ok i

/-- Words written out in the spec's examples decode to the instructions they stand for (R65, R80, R81, R84, R90, R92, R93,
R101, R106, R120, R140). ADD R0,R1,R2 = 0x1042; ADD R1,R1,#-1 = 0x127F; 0x1018 is ADD R0,R0,R0; 0x9000 is NOT R0,R0;
BRz #-3 = 0x05FD; RET = 0xC1C0; JSR #4 = 0x4804; LDI R2,#7 = 0xA407; STR R1,R6,#1 = 0x7381; 0xFF25 is TRAP HALT;
0xF026 has an unrecognized selector; 0x8000 is RTI. -/
def Obligations.SpecExampleWordsDecode : Prop :=
  decode 0x1042#16 = .ok (.addReg 0 1 2) ∧ decode 0x127F#16 = .ok (.addImm 1 1 0b11111#5) ∧
  decode 0x1018#16 = .ok (.addReg 0 0 0) ∧ decode 0x9000#16 = .ok (.not 0 0) ∧
  decode 0x05FD#16 = .ok (.br 0b010#3 0x1FD#9) ∧ decode 0xC1C0#16 = .ok .ret ∧ decode 0x4804#16 = .ok (.jsr 4#11) ∧
  decode 0xA407#16 = .ok (.ldi 2 7#9) ∧ decode 0x7381#16 = .ok (.str 1 6 1#6) ∧ decode 0xFF25#16 = .ok .trapHalt ∧
  decode 0xF026#16 = .ok (.trapUnrecognized 0x26#8) ∧ decode 0x8000#16 = .ok .rti

/-- sext_N keeps the two's-complement value and equals the source's OR with 0xFFFF << N; zext_16 keeps the value (R10).
For N = 5, 6, 9 and 11: sext_N(f) read as signed is f read as an N-bit signed number, and it is f with (0xFFFF << N)
ORed in exactly when bit N-1 is set. zext_16 of a character has the character's value. -/
def Obligations.SignExtensionFollowsItsDefinition : Prop :=
  (∀ f : BitVec 5, (sext f).toInt = f.toInt ∧
    sext f = if f.getLsbD 4 then f.setWidth 16 ||| (0xFFFF#16 <<< 5) else f.setWidth 16) ∧
  (∀ f : BitVec 6, (sext f).toInt = f.toInt ∧
    sext f = if f.getLsbD 5 then f.setWidth 16 ||| (0xFFFF#16 <<< 6) else f.setWidth 16) ∧
  (∀ f : BitVec 9, (sext f).toInt = f.toInt ∧
    sext f = if f.getLsbD 8 then f.setWidth 16 ||| (0xFFFF#16 <<< 9) else f.setWidth 16) ∧
  (∀ f : BitVec 11, (sext f).toInt = f.toInt ∧
    sext f = if f.getLsbD 10 then f.setWidth 16 ||| (0xFFFF#16 <<< 11) else f.setWidth 16) ∧
  ∀ c : Byte, (zext16 c).toNat = c.toNat

/-- setcc sets N if bit 15 of the register is set, else Z if it is zero, else P, from the value after the write (R27).
setcc(i) changes cond only: to 0b100 when the high bit of Ri is set, to 0b010 when Ri is zero, to 0b001 otherwise.
After a write it reads the written value. -/
def Obligations.SetccReportsSignZeroPositive : Prop :=
  (∀ r s, (s.reg r).getLsbD 15 = true → setcc r s = { s with cond := 0b100#3 }) ∧
  (∀ r s, s.reg r = 0x0000#16 → setcc r s = { s with cond := 0b010#3 }) ∧
  (∀ r s, (s.reg r).getLsbD 15 = false → s.reg r ≠ 0x0000#16 → setcc r s = { s with cond := 0b001#3 }) ∧
  ∀ r v s, (setcc r (setReg r v s)).cond = signFlag v

/-- ADD in register mode: every word of its layout, the sum modulo 2^16 and the flag, nothing else (R80). Every word 0001
DR SR1 0 xx SR2 decodes to ADD, whatever the ignored bits; in every state ADD gives the next state in which DR holds
x[SR1] + x[SR2] modulo 2^16, cond is N, Z or P of that value, and all else is unchanged. The encoding clause is the
rule's own, with the numbers the spec adopts (D2, log 9). -/
def Obligations.AddRegisterWritesSumAndFlag : Prop :=
  (∀ (dr sr1 sr2 : Reg) (x : BitVec 2),
    decode (0b0001#4 ++ regBits dr ++ regBits sr1 ++ 0b0#1 ++ x ++ regBits sr2) = .ok (.addReg dr sr1 sr2)) ∧
  ∀ (dr sr1 sr2 : Reg) (s : State),
    exec (.addReg dr sr1 sr2) s = .next { s with
      regs := s.regs.set dr (s.reg sr1 + s.reg sr2), cond := signFlag (s.reg sr1 + s.reg sr2) }

/-- ADD in immediate mode: every word of its layout, x[SR1] plus the signed imm5 and the flag, nothing else; modes agree
(R81). Every word 0001 DR SR1 1 imm5 decodes to ADD immediate; in every state it gives the next state in which DR
holds x[SR1] + sext_5(imm5) modulo 2^16, cond is the flag of that value, and all else is unchanged. When x[SR2] =
sext_5(imm5), register mode gives the same next state. The encoding clause is the rule's own, with the numbers the
spec adopts (D2, log 9). -/
def Obligations.AddImmediateWritesSumAndFlag : Prop :=
  (∀ (dr sr1 : Reg) (imm5 : BitVec 5),
    decode (0b0001#4 ++ regBits dr ++ regBits sr1 ++ 0b1#1 ++ imm5) = .ok (.addImm dr sr1 imm5)) ∧
  (∀ (dr sr1 : Reg) (imm5 : BitVec 5) (s : State),
    exec (.addImm dr sr1 imm5) s = .next { s with
      regs := s.regs.set dr (s.reg sr1 + BitVec.ofInt 16 imm5.toInt)
      cond := signFlag (s.reg sr1 + BitVec.ofInt 16 imm5.toInt) }) ∧
  ∀ (dr sr1 sr2 : Reg) (imm5 : BitVec 5) (s : State), s.reg sr2 = BitVec.ofInt 16 imm5.toInt →
    exec (.addReg dr sr1 sr2) s = exec (.addImm dr sr1 imm5) s

/-- AND in register mode: every word of its layout, the bitwise AND and the flag, nothing else (R82). Every word 0101 DR
SR1 0 xx SR2 decodes to AND, whatever the ignored bits; in every state AND gives the next state in which DR holds
x[SR1] & x[SR2], cond is the flag of that value, and all else is unchanged. The encoding clause is the rule's own,
with the numbers the spec adopts (D2, log 9). -/
def Obligations.AndRegisterWritesConjunctionAndFlag : Prop :=
  (∀ (dr sr1 sr2 : Reg) (x : BitVec 2),
    decode (0b0101#4 ++ regBits dr ++ regBits sr1 ++ 0b0#1 ++ x ++ regBits sr2) = .ok (.andReg dr sr1 sr2)) ∧
  ∀ (dr sr1 sr2 : Reg) (s : State),
    exec (.andReg dr sr1 sr2) s = .next { s with
      regs := s.regs.set dr (s.reg sr1 &&& s.reg sr2), cond := signFlag (s.reg sr1 &&& s.reg sr2) }

/-- AND in immediate mode: every word of its layout, x[SR1] AND the signed imm5 and the flag, nothing else (R83). Every
word 0101 DR SR1 1 imm5 decodes to AND immediate; in every state it gives the next state in which DR holds x[SR1] &
sext_5(imm5), cond is the flag of that value, and all else is unchanged. With imm5 = 0 the result is 0x0000 and Z;
with -1 it copies SR1. The encoding clause is the rule's own, with the numbers the spec adopts (D2, log 9). -/
def Obligations.AndImmediateWritesConjunctionAndFlag : Prop :=
  (∀ (dr sr1 : Reg) (imm5 : BitVec 5),
    decode (0b0101#4 ++ regBits dr ++ regBits sr1 ++ 0b1#1 ++ imm5) = .ok (.andImm dr sr1 imm5)) ∧
  (∀ (dr sr1 : Reg) (imm5 : BitVec 5) (s : State),
    exec (.andImm dr sr1 imm5) s = .next { s with
      regs := s.regs.set dr (s.reg sr1 &&& BitVec.ofInt 16 imm5.toInt)
      cond := signFlag (s.reg sr1 &&& BitVec.ofInt 16 imm5.toInt) }) ∧
  (∀ (dr sr1 : Reg) (s : State),
    exec (.andImm dr sr1 0#5) s = .next { s with regs := s.regs.set dr 0x0000#16, cond := 0b010#3 } ∧
    exec (.andImm dr sr1 0b11111#5) s = .next { s with
      regs := s.regs.set dr (s.reg sr1), cond := signFlag (s.reg sr1) })

/-- NOT: every word of its layout, the 16-bit complement and the flag, nothing else (R84). Every word 1001 DR SR xxxxxx
decodes to NOT, whatever the ignored bits; in every state NOT gives the next state in which DR holds the 16-bit
complement of x[SR], cond is the flag of that value, and all else is unchanged. The encoding clause is the rule's own,
with the numbers the spec adopts (D2, log 9). -/
def Obligations.NotWritesComplementAndFlag : Prop :=
  (∀ (dr sr : Reg) (x : BitVec 6), decode (0b1001#4 ++ regBits dr ++ regBits sr ++ x) = .ok (.not dr sr)) ∧
  ∀ (dr sr : Reg) (s : State),
    exec (.not dr sr) s = .next { s with
      regs := s.regs.set dr (~~~ s.reg sr), cond := signFlag (~~~ s.reg sr) }

/-- ADD is addition modulo 65536 read unsigned or signed, AND and NOT are bitwise, and NOT then ADD #1 negates (R85, R80,
R81, R82, R83, R84). In every state: ADD leaves (a + b) mod 65536 in DR, the same bits as the sum of the signed
readings, the immediate read as a signed 5-bit number; AND and NOT act on each of the 16 bits (bits 15 to 4 of an
immediate being its bit 4); no result of ADD, AND or NOT, in either mode, changes run (there is no overflow trap); NOT
followed by ADD #1 leaves 0 - x[SR]. -/
def Obligations.AluIsArithmeticModulo65536 : Prop :=
  (∀ (dr sr1 sr2 : Reg) (s : State), ∃ t, exec (.addReg dr sr1 sr2) s = .next t ∧ t.run = s.run ∧
    (t.reg dr).toNat = ((s.reg sr1).toNat + (s.reg sr2).toNat) % 65536 ∧
    t.reg dr = BitVec.ofInt 16 ((s.reg sr1).toInt + (s.reg sr2).toInt)) ∧
  (∀ (dr sr1 : Reg) (imm5 : BitVec 5) (s : State), ∃ t, exec (.addImm dr sr1 imm5) s = .next t ∧ t.run = s.run ∧
    t.reg dr = BitVec.ofInt 16 ((s.reg sr1).toInt + imm5.toInt)) ∧
  (∀ (dr sr1 sr2 : Reg) (s : State), ∃ t, exec (.andReg dr sr1 sr2) s = .next t ∧ t.run = s.run ∧
    ∀ k, (t.reg dr).getLsbD k = ((s.reg sr1).getLsbD k && (s.reg sr2).getLsbD k)) ∧
  (∀ (dr sr1 : Reg) (imm5 : BitVec 5) (s : State), ∃ t, exec (.andImm dr sr1 imm5) s = .next t ∧ t.run = s.run ∧
    ∀ k, k < 16 → (t.reg dr).getLsbD k = ((s.reg sr1).getLsbD k && imm5.getLsbD (min k 4))) ∧
  (∀ (dr sr : Reg) (s : State), ∃ t, exec (.not dr sr) s = .next t ∧ t.run = s.run ∧
    (∀ k, k < 16 → (t.reg dr).getLsbD k = !(s.reg sr).getLsbD k) ∧
    ∃ u, exec (.addImm dr dr 1#5) t = .next u ∧ u.reg dr = 0x0000#16 - s.reg sr)

/-- BR: every word of its layout; taken exactly when nzp & cond is nonzero, to pc + sext_9(offset); nothing else changes
(R90). Every word 0000 nzp PCoffset9 decodes to BR; in every state, when nzp AND cond is nonzero the next state has pc
+ sext_9(PCoffset9) (pc being the incremented PC, modulo 2^16) and is otherwise unchanged; when it is zero the next
state is the state itself. The encoding clause is the rule's own, with the numbers the spec adopts (D2, log 9). -/
def Obligations.BranchTakenExactlyWhenMaskMeetsFlags : Prop :=
  (∀ (nzp : BitVec 3) (offset9 : BitVec 9), decode (0b0000#4 ++ nzp ++ offset9) = .ok (.br nzp offset9)) ∧
  ∀ (nzp : BitVec 3) (offset9 : BitVec 9) (s : State),
    (nzp &&& s.cond ≠ 0b000#3 →
      exec (.br nzp offset9) s = .next { s with pc := s.pc + BitVec.ofInt 16 offset9.toInt }) ∧
    (nzp &&& s.cond = 0b000#3 → exec (.br nzp offset9) s = .next s)

/-- JMP, and RET when BaseR is 7: every word of the layout sets pc to the base register and nothing else (R91). Every word
1100 xxx BaseR xxxxxx, whatever the ignored bits, decodes to an instruction whose next state has pc = x[BaseR] and is
otherwise unchanged, R7 included; so do the model's two constructors of that layout, jmp for each base register and
ret for R7. The encoding clause is the rule's own, with the numbers the spec adopts (D2, log 9). -/
def Obligations.JumpGoesToBaseRegister : Prop :=
  (∀ (x : BitVec 3) (base : Reg) (y : BitVec 6), ∃ i, decode (0b1100#4 ++ x ++ regBits base ++ y) = .ok i ∧
    ∀ s : State, exec i s = .next { s with pc := s.reg base }) ∧
  (∀ (base : Reg) (s : State), exec (.jmp base) s = .next { s with pc := s.reg base }) ∧
  ∀ s : State, exec .ret s = .next { s with pc := s.reg 7 }

/-- JSR: every word of its layout; R7 receives the incremented PC, pc becomes pc + sext_11(offset); nothing else changes
(R93). Every word 0100 1 PCoffset11 decodes to JSR; in every state the next state has R7 = the incremented PC and pc =
that PC + sext_11(PCoffset11) modulo 2^16; cond and all else are unchanged. The encoding clause is the rule's own,
with the numbers the spec adopts (D2, log 9). -/
def Obligations.JsrLinksR7AndBranches : Prop :=
  (∀ offset11 : BitVec 11, decode (0b01001#5 ++ offset11) = .ok (.jsr offset11)) ∧
  ∀ (offset11 : BitVec 11) (s : State),
    exec (.jsr offset11) s = .next { s with
      regs := s.regs.set 7 s.pc, pc := s.pc + BitVec.ofInt 16 offset11.toInt }

/-- JSRR: every word of its layout; R7 receives the incremented PC first, then pc becomes the base register (R94). Every
word 0100 0 xx BaseR xxxxxx decodes to JSRR, whatever the ignored bits; in every state the next state has R7 = the
incremented PC and pc = x[BaseR] for BaseR other than 7, and pc = the incremented PC for BaseR = 7; cond and all else
are unchanged. The encoding clause is the rule's own, with the numbers the spec adopts (D2, log 9). -/
def Obligations.JsrrWritesR7BeforeReadingBase : Prop :=
  (∀ (x : BitVec 2) (base : Reg) (y : BitVec 6),
    decode (0b0100#4 ++ 0b0#1 ++ x ++ regBits base ++ y) = .ok (.jsrr base)) ∧
  ∀ (base : Reg) (s : State),
    exec (.jsrr base) s = .next { s with
      regs := s.regs.set 7 s.pc, pc := if base = 7 then s.pc else s.reg base }

/-- LD: every word of its layout; DR receives the cell at pc + sext_9(offset) and its flag, with the keyboard case at
0xFE00 (R100). Every word 0010 DR PCoffset9 decodes to LD; at an address other than 0xFE00 the next state has DR = the
cell and cond = its flag, all else unchanged. At 0xFE00 one character c is taken (inChar), 0xFE02 holds it, 0xFE00
holds 0x8000, DR = 0x8000 and cond = N; if no character ever comes LD does not complete. The encoding clause is the
rule's own, with the numbers the spec adopts (D2, log 9). -/
def Obligations.LoadReadsPcRelativeCell : Prop :=
  (∀ (dr : Reg) (offset9 : BitVec 9), decode (0b0010#4 ++ regBits dr ++ offset9) = .ok (.ld dr offset9)) ∧
  ∀ (dr : Reg) (offset9 : BitVec 9) (s : State), let ea := s.pc + BitVec.ofInt 16 offset9.toInt;
    (ea ≠ 0xFE00#16 → exec (.ld dr offset9) s = .next { s with
      regs := s.regs.set dr (s.cell ea), cond := signFlag (s.cell ea) }) ∧
    (ea = 0xFE00#16 → ∀ c s1, inChar s = .ok (c, s1) → exec (.ld dr offset9) s = .next
      { keyboardLatched c s1 with regs := s.regs.set dr 0x8000#16, cond := 0b100#3 }) ∧
    (ea = 0xFE00#16 → ∀ f, inChar s = .error f → exec (.ld dr offset9) s = .fault f)

/-- LDI: every word of its layout; the pointer read, then the read at the pointer into DR, each with the keyboard case
(R101). Every word 1010 DR PCoffset9 decodes to LDI. With the pointer cell at ea, not 0xFE00, holding p: for p other
than 0xFE00, DR = the cell at p with its flag and nothing else changes; for p = 0xFE00 the second read is the keyboard
status read. With ea = 0xFE00 the pointer is 0x8000 after one character is taken, and DR = the cell at 0x8000. Without
a character neither completes. The encoding clause is the rule's own, with the numbers the spec adopts (D2, log 9). -/
def Obligations.LoadIndirectReadsThroughPointer : Prop :=
  (∀ (dr : Reg) (offset9 : BitVec 9), decode (0b1010#4 ++ regBits dr ++ offset9) = .ok (.ldi dr offset9)) ∧
  ∀ (dr : Reg) (offset9 : BitVec 9) (s : State), let ea := s.pc + BitVec.ofInt 16 offset9.toInt;
    (ea ≠ 0xFE00#16 → s.cell ea ≠ 0xFE00#16 → exec (.ldi dr offset9) s = .next { s with
      regs := s.regs.set dr (s.cell (s.cell ea)), cond := signFlag (s.cell (s.cell ea)) }) ∧
    (ea ≠ 0xFE00#16 → s.cell ea = 0xFE00#16 → ∀ c s1, inChar s = .ok (c, s1) → exec (.ldi dr offset9) s = .next
      { keyboardLatched c s1 with regs := s.regs.set dr 0x8000#16, cond := 0b100#3 }) ∧
    (ea = 0xFE00#16 → ∀ c s1, inChar s = .ok (c, s1) → exec (.ldi dr offset9) s = .next
      { keyboardLatched c s1 with
        regs := s.regs.set dr (s.cell 0x8000#16), cond := signFlag (s.cell 0x8000#16) }) ∧
    (ea = 0xFE00#16 ∨ s.cell ea = 0xFE00#16 → ∀ f, inChar s = .error f → exec (.ldi dr offset9) s = .fault f)

/-- LDR: every word of its layout; DR receives the cell at x[BaseR] + sext_6(offset) and its flag, with the keyboard case
(R102). Every word 0110 DR BaseR offset6 decodes to LDR; the address is computed from the old base register, modulo
2^16. At an address other than 0xFE00 the next state has DR = the cell and cond = its flag, all else unchanged; at
0xFE00 the keyboard status read happens, DR = 0x8000, cond = N; if no character ever comes LDR does not complete. The
encoding clause is the rule's own, with the numbers the spec adopts (D2, log 9). -/
def Obligations.LoadBaseOffsetReadsCell : Prop :=
  (∀ (dr base : Reg) (offset6 : BitVec 6), decode (0b0110#4 ++ regBits dr ++ regBits base ++ offset6) = .ok (.ldr dr base offset6)) ∧
  ∀ (dr base : Reg) (offset6 : BitVec 6) (s : State), let ea := s.reg base + BitVec.ofInt 16 offset6.toInt;
    (ea ≠ 0xFE00#16 → exec (.ldr dr base offset6) s = .next { s with
      regs := s.regs.set dr (s.cell ea), cond := signFlag (s.cell ea) }) ∧
    (ea = 0xFE00#16 → ∀ c s1, inChar s = .ok (c, s1) → exec (.ldr dr base offset6) s = .next
      { keyboardLatched c s1 with regs := s.regs.set dr 0x8000#16, cond := 0b100#3 }) ∧
    (ea = 0xFE00#16 → ∀ f, inChar s = .error f → exec (.ldr dr base offset6) s = .fault f)

/-- LEA: every word of its layout; DR receives pc + sext_9(offset) and its flag, with no memory access (R103). Every word
1110 DR PCoffset9 decodes to LEA; in every state the next state has DR = pc + sext_9(PCoffset9) modulo 2^16 and cond =
its flag; memory, input and all else are unchanged, at 0xFE00 too. The encoding clause is the rule's own, with the
numbers the spec adopts (D2, log 9). -/
def Obligations.LeaWritesAddressAndFlag : Prop :=
  (∀ (dr : Reg) (offset9 : BitVec 9), decode (0b1110#4 ++ regBits dr ++ offset9) = .ok (.lea dr offset9)) ∧
  ∀ (dr : Reg) (offset9 : BitVec 9) (s : State),
    exec (.lea dr offset9) s = .next { s with
      regs := s.regs.set dr (s.pc + BitVec.ofInt 16 offset9.toInt)
      cond := signFlag (s.pc + BitVec.ofInt 16 offset9.toInt) }

/-- ST: every word of its layout; the cell at pc + sext_9(offset) receives x[SR] and nothing else changes (R104). Every
word 0011 SR PCoffset9 decodes to ST; in every state the next state differs in memory only: the cell at pc +
sext_9(PCoffset9) holds x[SR], every other cell reads as before, 0xFE00 and 0xFE02 being plain cells here. The
encoding clause is the rule's own, with the numbers the spec adopts (D2, log 9). -/
def Obligations.StoreWritesPcRelativeCell : Prop :=
  (∀ (sr : Reg) (offset9 : BitVec 9), decode (0b0011#4 ++ regBits sr ++ offset9) = .ok (.st sr offset9)) ∧
  ∀ (sr : Reg) (offset9 : BitVec 9) (s : State), ∃ m : Memory, exec (.st sr offset9) s = .next { s with mem := m } ∧
    ∀ a : Word, m.read a.toNat = if a = s.pc + BitVec.ofInt 16 offset9.toInt then s.reg sr else s.cell a

/-- STI: every word of its layout; the pointer is read with MemRead, and the cell it names receives x[SR] (R105). Every
word 1011 SR PCoffset9 decodes to STI. With the pointer cell at ea, not 0xFE00, the cell at the pointer holds x[SR]
and every other cell, and all else, is as before, the pointer 0xFE00 included. With ea = 0xFE00 the keyboard status
read happens first and the store goes to 0x8000. Without a character it does not complete. The encoding clause is the
rule's own, with the numbers the spec adopts (D2, log 9). -/
def Obligations.StoreIndirectWritesThroughPointer : Prop :=
  (∀ (sr : Reg) (offset9 : BitVec 9), decode (0b1011#4 ++ regBits sr ++ offset9) = .ok (.sti sr offset9)) ∧
  ∀ (sr : Reg) (offset9 : BitVec 9) (s : State), let ea := s.pc + BitVec.ofInt 16 offset9.toInt;
    (ea ≠ 0xFE00#16 → ∃ m : Memory, exec (.sti sr offset9) s = .next { s with mem := m } ∧
      ∀ a : Word, m.read a.toNat = if a = s.cell ea then s.reg sr else s.cell a) ∧
    (ea = 0xFE00#16 → ∀ c s1, inChar s = .ok (c, s1) →
      ∃ m : Memory, exec (.sti sr offset9) s = .next { s1 with mem := m } ∧
        ∀ a : Word, m.read a.toNat = if a = 0x8000#16 then s.reg sr else (keyboardLatched c s1).cell a) ∧
    (ea = 0xFE00#16 → ∀ f, inChar s = .error f → exec (.sti sr offset9) s = .fault f)

/-- STR: every word of its layout; the cell at x[BaseR] + sext_6(offset) receives x[SR] and nothing else changes (R106).
Every word 0111 SR BaseR offset6 decodes to STR; in every state the next state differs in memory only: the cell at
x[BaseR] + sext_6(offset6), modulo 2^16, holds x[SR] and every other cell reads as before; SR may equal BaseR. The
encoding clause is the rule's own, with the numbers the spec adopts (D2, log 9). -/
def Obligations.StoreBaseOffsetWritesCell : Prop :=
  (∀ (sr base : Reg) (offset6 : BitVec 6), decode (0b0111#4 ++ regBits sr ++ regBits base ++ offset6) = .ok (.str sr base offset6)) ∧
  ∀ (sr base : Reg) (offset6 : BitVec 6) (s : State), ∃ m : Memory, exec (.str sr base offset6) s = .next { s with mem := m } ∧
    ∀ a : Word, m.read a.toNat = if a = s.reg base + BitVec.ofInt 16 offset6.toInt then s.reg sr else s.cell a

/-- A TRAP word selects its routine by the low byte alone, and no routine writes R7, cond or pc (R120, R65). Every word
1111 xxxx v decodes to the routine of v (0x20 GETC to 0x25 HALT, the spec's D3) or, for any other v, to the
unrecognized selector; each routine that gives a next state leaves R7 and cond (the spec's D8 and D9, log 10) and the
incremented PC as they are. -/
def Obligations.TrapSelectsItsRoutine : Prop :=
  (∀ x : BitVec 4, decode (0xF#4 ++ x ++ 0x20#8) = .ok .trapGetc ∧ decode (0xF#4 ++ x ++ 0x21#8) = .ok .trapOut ∧
    decode (0xF#4 ++ x ++ 0x22#8) = .ok .trapPuts ∧ decode (0xF#4 ++ x ++ 0x23#8) = .ok .trapIn ∧
    decode (0xF#4 ++ x ++ 0x24#8) = .ok .trapPutsp ∧ decode (0xF#4 ++ x ++ 0x25#8) = .ok .trapHalt ∧
    ∀ v : BitVec 8, v.toNat < 0x20 ∨ 0x25 < v.toNat → decode (0xF#4 ++ x ++ v) = .ok (.trapUnrecognized v)) ∧
  ∀ (i : Instr) (s t : State),
    (i = .trapGetc ∨ i = .trapOut ∨ i = .trapPuts ∨ i = .trapIn ∨ i = .trapPutsp ∨ i = .trapHalt ∨
      ∃ v, i = .trapUnrecognized v) →
    exec i s = .next t → t.reg 7 = s.reg 7 ∧ t.cond = s.cond ∧ t.pc = s.pc

/-- GETC: R0 receives the next character zero-extended, output is flushed, and nothing is echoed (R121, R129, R128). With
a supplied character ch next, the next state has R0 = zext(ch) (D12, log 10), that character consumed, every appended
byte flushed (log 14), and all else, cond included (D9), unchanged. With no character supplied and the sequence not
ended, the same holds for the character of the host's answer, and if the host never answers GETC does not complete
(the free value of log 2). -/
def Obligations.GetcReadsOneCharacterIntoR0 : Prop :=
  (∀ (s : State) (ch : Byte) (rest : List Byte), s.input = ch :: rest →
    exec .trapGetc s = .next { s with
      regs := s.regs.set 0 (ch.setWidth 16), input := rest, inputPos := s.inputPos + 1, flushed := s.output.length }) ∧
  ∀ s : State, s.input = [] → s.inputEnded = false →
    (∃ ch : Byte, Config.hostChar s.inputPos = some ch ∧ exec .trapGetc s = .next { s with
      regs := s.regs.set 0 (ch.setWidth 16), inputPos := s.inputPos + 1, flushed := s.output.length }) ∨
    (Config.hostChar s.inputPos = none ∧ exec .trapGetc s = .fault .inputUnanswered)

/-- OUT: every word of its layout; the low byte of R0 is appended to the output and nothing else changes (R122). Every
word 1111 xxxx 0x21 decodes to OUT; in every state the next state has R0[7:0] appended to the output stream, whatever
R0[15:8]; no register, flag, cell and no flush mark changes. The encoding clause is the rule's own, with the numbers
the spec adopts (D2, log 9). -/
def Obligations.OutAppendsLowByteOfR0 : Prop :=
  (∀ x : BitVec 4, decode (0xF#4 ++ x ++ 0x21#8) = .ok .trapOut) ∧
  ∀ s : State, exec .trapOut s = .next { s with output := s.output ++ [(s.reg 0).setWidth 8] }

/-- PUTS: the low byte of each cell from x[0] up to the first zero cell is appended, then the output is flushed (R123,
R128, R47). If the n cells from x[0] on (the address wrapping, D13, log 12) are nonzero and the next one is zero, PUTS
gives the next state whose output has the low byte of each of the n cells appended in order, all of it flushed;
registers, cond, memory and input are unchanged. If no cell is zero PUTS never ends. -/
def Obligations.PutsWritesLowBytesUntilZeroCell : Prop :=
  (∀ (s : State) (n : Nat), n < 65536 → (∀ k, k < n → s.cell (s.reg 0 + BitVec.ofNat 16 k) ≠ 0x0000#16) →
    s.cell (s.reg 0 + BitVec.ofNat 16 n) = 0x0000#16 →
    exec .trapPuts s = .next { s with
      output := s.output ++ (List.range n).map (fun k => (s.cell (s.reg 0 + BitVec.ofNat 16 k)).setWidth 8)
      flushed := s.output.length + n }) ∧
  ∀ s : State, (∀ a, s.cell a ≠ 0x0000#16) → exec .trapPuts s = .fault .endlessString

/-- IN: R0 receives the next character zero-extended and the character is echoed, with no prompt and no flush (R124, R129,
R128). With a supplied character ch next, the next state has R0 = zext(ch), ch appended to the output, that character
consumed, and all else, cond (D9) and the flush mark included, unchanged (no prompt: D14, log 10). With no character
supplied and the sequence not ended, the same holds for the character of the host's answer, and if the host never
answers IN does not complete (the free value of log 2). -/
def Obligations.InReadsEchoesAndStoresCharacter : Prop :=
  (∀ (s : State) (ch : Byte) (rest : List Byte), s.input = ch :: rest →
    exec .trapIn s = .next { s with
      regs := s.regs.set 0 (ch.setWidth 16), input := rest, inputPos := s.inputPos + 1, output := s.output ++ [ch] }) ∧
  ∀ s : State, s.input = [] → s.inputEnded = false →
    (∃ ch : Byte, Config.hostChar s.inputPos = some ch ∧ exec .trapIn s = .next { s with
      regs := s.regs.set 0 (ch.setWidth 16), inputPos := s.inputPos + 1, output := s.output ++ [ch] }) ∨
    (Config.hostChar s.inputPos = none ∧ exec .trapIn s = .fault .inputUnanswered)

/-- PUTSP: low byte always, then high byte if nonzero, of each cell up to the first zero cell, then a flush (R125, R128,
R47). If the n cells from x[0] on (wrapping, D13, log 12) are nonzero and the next one is zero, PUTSP gives the next
state whose output has, for each of the n cells in order, its low byte and then its high byte if that is not zero, all
of it flushed; registers, cond, memory and input are unchanged. If no cell is zero PUTSP never ends. -/
def Obligations.PutspWritesPackedBytesUntilZeroCell : Prop :=
  (∀ (s : State) (n : Nat) (bytes : List Byte), n < 65536 →
    (∀ k, k < n → s.cell (s.reg 0 + BitVec.ofNat 16 k) ≠ 0x0000#16) →
    s.cell (s.reg 0 + BitVec.ofNat 16 n) = 0x0000#16 →
    bytes = (List.range n).flatMap (fun k =>
      let w := s.cell (s.reg 0 + BitVec.ofNat 16 k)
      if w.toNat < 256 then [w.setWidth 8] else [w.setWidth 8, (w >>> 8).setWidth 8]) →
    exec .trapPutsp s = .next { s with
      output := s.output ++ bytes, flushed := s.output.length + bytes.length }) ∧
  ∀ s : State, (∀ a, s.cell a ≠ 0x0000#16) → exec .trapPutsp s = .fault .endlessString

/-- HALT: the output is flushed, run becomes HALTED with exit status 0, and nothing else changes (R126, R128, R164). In
every state TRAP HALT gives the next state with every appended byte flushed and run = HALTED, writing no character
(D15, log 10); registers, cond, pc and memory are unchanged, and the exit status of HALTED is 0. -/
def Obligations.HaltFlushesAndEndsTheRun : Prop :=
  (∀ s : State, exec .trapHalt s = .next { s with flushed := s.output.length, run := .halted }) ∧
  exitStatus .halted = some 0

/-- TRAP with a selector outside 0x20 to 0x25 takes the BadTrap fault with that selector and changes nothing else (R127,
R150). For every selector, the unrecognized-selector row gives the next state with run = FAULTED(BadTrap(v)) and all
else unchanged (the spec's decision D10, log 11). -/
def Obligations.UnrecognizedSelectorFaults : Prop :=
  ∀ (v : BitVec 8) (s : State), exec (.trapUnrecognized v) s = .next { s with run := .faulted (.badTrap v) }

/-- RTI and RES: every word of either opcode takes the UnusedOpcode fault, whatever its low 12 bits; only pc and run
change (R140, R141). Every word 1000 x and 1101 x decodes to RTI and RES. Each gives the next state with run =
FAULTED(UnusedOpcode) of its name and all else unchanged. A step of a RUNNING engine that fetches such a word (from an
address other than 0xFE00) changes pc to the address plus 1 and run, nothing else; from there no step is taken, and
the exit status is nonzero. The encoding clause is the rule's own, with the numbers the spec adopts (D2, log 9). -/
def Obligations.ReservedOpcodesTakeUnusedOpcodeFault : Prop :=
  (∀ x : BitVec 12, decode (0b1000#4 ++ x) = .ok .rti ∧ decode (0b1101#4 ++ x) = .ok .res) ∧
  (∀ s : State, exec .rti s = .next { s with run := .faulted (.unusedOpcode .rti) } ∧
    exec .res s = .next { s with run := .faulted (.unusedOpcode .res) }) ∧
  (∀ (s : State) (x : BitVec 12), s.run = .running → s.pc ≠ 0xFE00#16 →
    (s.cell s.pc = 0b1000#4 ++ x →
      step s = .next { s with pc := s.pc + 1#16, run := .faulted (.unusedOpcode .rti) }) ∧
    (s.cell s.pc = 0b1101#4 ++ x →
      step s = .next { s with pc := s.pc + 1#16, run := .faulted (.unusedOpcode .res) })) ∧
  (∀ (s t : State) (op : ReservedOpcode), s.run = .faulted (.unusedOpcode op) → step s ≠ .next t) ∧
  ∀ op : ReservedOpcode, ∃ n, exitStatus (.faulted (.unusedOpcode op)) = some n ∧ n ≠ 0

/-- PUTS and PUTSP complete exactly when some cell of memory is zero (R123, R125). From any start address, since the
pointer wraps through all 65536 cells (D13, log 12), PUTS gives a next state exactly when some cell reads 0x0000, and
so does PUTSP. -/
def Obligations.StringRoutineEndsExactlyWhenACellIsZero : Prop :=
  ∀ s : State, ((∃ t, exec .trapPuts s = .next t) ↔ ∃ a, s.cell a = 0x0000#16) ∧
    ((∃ t, exec .trapPutsp s = .next t) ↔ ∃ a, s.cell a = 0x0000#16)

/-- MemRead returns the stored word; only at 0xFE00 does the keyboard status read come first (R42, R45). At every address
other than 0xFE00, the keyboard data register 0xFE02 included, MemRead returns the stored word and changes nothing. At
0xFE00 it returns the word stored after KeyboardStatusRead. -/
def Obligations.MemReadIsPlainAwayFromKeyboardStatus : Prop :=
  (∀ (a : Word) (s : State), a ≠ 0xFE00#16 → memRead a s = .ok (s.cell a, s)) ∧
  (∀ s : State, memRead 0xFE02#16 s = .ok (s.cell 0xFE02#16, s)) ∧
  (∀ s s1 : State, keyboardStatusRead s = .ok s1 → memRead 0xFE00#16 s = .ok (s1.cell 0xFE00#16, s1)) ∧
  ∀ (s : State) (f : Fault), keyboardStatusRead s = .error f → memRead 0xFE00#16 s = .error f

/-- A read of 0xFE00 returns 0x8000, leaves it there, puts the character in 0xFE02, and changes no other cell or register
(R43, R159). When a character c can be had, MemRead(0xFE00) returns 0x8000; after it the cell 0xFE00 holds 0x8000, the
cell 0xFE02 holds c, every other cell reads as before, and of the rest only the input queue and position change, as
InChar changes them. A supplied character ch gives c = zext(ch) (D12, log 10) and is consumed. -/
def Obligations.KeyboardStatusReadLatchesCharacter : Prop :=
  (∀ (s s1 : State) (c : Word), inChar s = .ok (c, s1) → ∃ t, memRead 0xFE00#16 s = .ok (0x8000#16, t) ∧
    t.cell 0xFE00#16 = 0x8000#16 ∧ t.cell 0xFE02#16 = c ∧
    (∀ a, a ≠ 0xFE00#16 → a ≠ 0xFE02#16 → t.cell a = s.cell a) ∧
    t = { s with mem := t.mem, input := s1.input, inputPos := s1.inputPos }) ∧
  ∀ (s : State) (ch : Byte) (rest : List Byte), s.input = ch :: rest → ∃ t, memRead 0xFE00#16 s = .ok (0x8000#16, t) ∧
    t.cell 0xFE02#16 = ch.setWidth 16 ∧ t.input = rest ∧ t.inputPos = s.inputPos + 1

/-- InChar consumes one character of the host's sequence, in order, waits for ever for one, or decides the end of input by
EOF_POLICY (R32, R129, R44). A supplied character is delivered zero-extended and consumed, and the next call receives
the next one. With none supplied and the sequence not ended, the host's answer is delivered, and if it never answers
InChar never completes (the free value, log 2). At the end of input, Block never completes and Sentinel returns 0xFFFF
and consumes nothing (D11, log 3). InChar touches nothing but the input queue and position. A character the host
supplies to an empty queue is the next one delivered. -/
def Obligations.InCharDeliversNextCharacterOnce : Prop :=
  (∀ (s : State) (ch : Byte) (rest : List Byte), s.input = ch :: rest →
    inChar s = .ok (ch.setWidth 16, { s with input := rest, inputPos := s.inputPos + 1 })) ∧
  (∀ s : State, s.input = [] → s.inputEnded = false →
    (∃ ch : Byte, Config.hostChar s.inputPos = some ch ∧
      inChar s = .ok (ch.setWidth 16, { s with inputPos := s.inputPos + 1 })) ∨
    (Config.hostChar s.inputPos = none ∧ inChar s = .error .inputUnanswered)) ∧
  (∀ s : State, s.input = [] → s.inputEnded = true → s.eofPolicy = .block → inChar s = .error .inputExhausted) ∧
  (∀ s : State, s.input = [] → s.inputEnded = true → s.eofPolicy = .sentinel → inChar s = .ok (0xFFFF#16, s)) ∧
  ∀ (s : State) (ch : Byte), s.input = [] →
    inChar (supplyInput ch s) = .ok (ch.setWidth 16, { s with inputPos := s.inputPos + 1 })

/-- At the end of input a request never completes under Block; under Sentinel it takes 0xFFFF and a read of 0xFE00 returns
0x8000 (R44, R129, R159). With the input ended and no character left. Block: GETC, IN, a read of 0xFE00, an LD from
there and a step that fetches there give no next state. Sentinel: GETC stores 0xFFFF in R0, IN stores it and echoes
0xFF, and a read of 0xFE00 stores 0xFFFF in 0xFE02 and returns 0x8000: LD gets 0x8000 and cond = N, and a fetch gets
RTI, whose fault follows. No character is consumed. This is the spec's decision D11 (log 3). -/
def Obligations.EndOfInputBlocksOrReturnsSentinel : Prop :=
  (∀ s : State, s.input = [] → s.inputEnded = true → s.eofPolicy = .block →
    exec .trapGetc s = .fault .inputExhausted ∧ exec .trapIn s = .fault .inputExhausted ∧
    memRead 0xFE00#16 s = .error .inputExhausted ∧
    (∀ (dr : Reg) (offset9 : BitVec 9), s.pc + BitVec.ofInt 16 offset9.toInt = 0xFE00#16 →
      exec (.ld dr offset9) s = .fault .inputExhausted) ∧
    (s.run = .running → s.pc = 0xFE00#16 → step s = .fault .inputExhausted)) ∧
  ∀ s : State, s.input = [] → s.inputEnded = true → s.eofPolicy = .sentinel →
    exec .trapGetc s = .next { s with regs := s.regs.set 0 0xFFFF#16, flushed := s.output.length } ∧
    exec .trapIn s = .next { s with regs := s.regs.set 0 0xFFFF#16, output := s.output ++ [0xFF#8] } ∧
    (∃ t, memRead 0xFE00#16 s = .ok (0x8000#16, t) ∧ t.cell 0xFE02#16 = 0xFFFF#16 ∧
      t.input = [] ∧ t.inputPos = s.inputPos) ∧
    (∀ (dr : Reg) (offset9 : BitVec 9), s.pc + BitVec.ofInt 16 offset9.toInt = 0xFE00#16 →
      exec (.ld dr offset9) s = .next
        { keyboardLatched 0xFFFF#16 s with regs := s.regs.set dr 0x8000#16, cond := 0b100#3 }) ∧
    (s.run = .running → s.pc = 0xFE00#16 → step s = .next
      { keyboardLatched 0xFFFF#16 s with pc := 0xFE01#16, run := .faulted (.unusedOpcode .rti) })

/-- MemWrite stores the word at its address, 0xFE00 and 0xFE02 included, and changes no other cell and nothing else (R46).
After MemWrite(a, v) the cell a reads v and every other cell reads as before, in every state and at every address; the
state differs in memory only, so no input is consumed and no output is produced. -/
def Obligations.MemWriteStoresOneCell : Prop :=
  ∀ (a v : Word) (s : State), (∀ b : Word, (memWrite a v s).cell b = if b = a then v else s.cell b) ∧
    memWrite a v s = { s with mem := (memWrite a v s).mem }

/-- A word stored by ST is what LD loads from that address and what a later fetch there fetches, except at 0xFE00 (R50,
R54, R58). For an address other than 0xFE00 (0xFE02 included): after ST, an LD of the same address gives the stored
word in its register; and an engine that stands at that address fetches the stored word, with no fence, flush or
delay. -/
def Obligations.StoredWordIsLoadedAndFetched : Prop :=
  ∀ (sr dr : Reg) (offset9 : BitVec 9) (s : State) (a : Word), a = s.pc + BitVec.ofInt 16 offset9.toInt →
    a ≠ 0xFE00#16 → ∃ t, exec (.st sr offset9) s = .next t ∧
      (∃ u, exec (.ld dr offset9) t = .next u ∧ u.reg dr = s.reg sr) ∧
      fetch { t with pc := a } = .ok (s.reg sr, { t with pc := a + 1#16 })

/-- Two memories in canonical form whose 65536 cells read alike are the same data (R31, R40). The model's listing of
memory (log 1) is canonical: if both lists are in canonical form and every cell reads the same in both, the lists are
equal. -/
def Obligations.CanonicalMemoriesWithEqualCellsAreEqual : Prop :=
  ∀ m m' : Memory, m.wf → m'.wf → (∀ a : Word, m.read a.toNat = m'.read a.toNat) → m = m'

/-- A step in RUNNING fetches with MemRead at pc, increments pc, decodes, and is exec of the decoded instruction (R72). If
the engine is RUNNING, MemRead(pc) gives the word w and the state s1, and w decodes to i, then step is exec of i at s1
with pc = the fetched address plus 1 modulo 2^16. At a pc other than 0xFE00 that is the cell at pc and the state
itself. If the fetch never completes, neither does the step. In HALTED and FAULTED no step is taken. -/
def Obligations.StepRunsTheDecodedInstruction : Prop :=
  (∀ (s s1 : State) (w : Word) (i : Instr), s.run = .running → memRead s.pc s = .ok (w, s1) → decode w = .ok i →
    step s = exec i { s1 with pc := s.pc + 1#16 }) ∧
  (∀ (s : State) (i : Instr), s.run = .running → s.pc ≠ 0xFE00#16 → decode (s.cell s.pc) = .ok i →
    step s = exec i { s with pc := s.pc + 1#16 }) ∧
  (∀ (s : State) (f : Fault), s.run = .running → memRead s.pc s = .error f → step s = .fault f) ∧
  ∀ s t : State, s.run ≠ .running → step s ≠ .next t

/-- The fetch leaves pc at the fetched address plus 1, wrapping, and only a taken BR, JMP, JSR or JSRR overwrites it
(R24). A fetch that completes sets pc to the fetched address plus 1 modulo 2^16, 0xFFFF giving 0x0000. Every
instruction other than BR, JMP (RET), JSR and JSRR leaves pc at that value, and so does a BR whose mask does not meet
cond. -/
def Obligations.FetchIncrementsPcAndOnlyJumpsChangeIt : Prop :=
  (∀ (s s1 : State) (w : Word), fetch s = .ok (w, s1) →
    (∃ s0, memRead s.pc s = .ok (w, s0)) ∧ s1.pc.toNat = (s.pc.toNat + 1) % 65536) ∧
  (∀ (i : Instr) (s t : State), exec i s = .next t → mayJump i = false → t.pc = s.pc) ∧
  ∀ (nzp : BitVec 3) (offset9 : BitVec 9) (s t : State), exec (.br nzp offset9) s = .next t →
    nzp &&& s.cond = 0b000#3 → t.pc = s.pc

/-- A step at pc 0xFE00 consumes one character, latches the keyboard cells, and faults as RTI (R57, R140, R151). If the
engine is RUNNING at pc = 0xFE00 and a character c can be had, the step gives the state with the keyboard cells
latched, pc = 0xFE01 and run = FAULTED(UnusedOpcode(RTI)), whatever 0xFE00 held (the spec's decision D7, log 8). -/
def Obligations.FetchAtKeyboardStatusFaultsAsRti : Prop :=
  ∀ (s s1 : State) (c : Word), s.run = .running → s.pc = 0xFE00#16 → inChar s = .ok (c, s1) →
    step s = .next { keyboardLatched c s1 with pc := 0xFE01#16, run := .faulted (.unusedOpcode .rti) }

/-- HALTED is entered only by TRAP HALT, FAULTED only by the faults with their reasons, and no step leaves either (R30).
Reset is RUNNING; a step is taken only in RUNNING. A step whose next state is HALTED fetched TRAP HALT. A step whose
next state is FAULTED(r) fetched RTI with r = UnusedOpcode(RTI), RES with r = UnusedOpcode(RES), or a TRAP with an
unrecognized selector v and r = BadTrap(v); BadOpcode is never recorded. -/
def Obligations.RunStateChangesOnlyByHaltAndFaults : Prop :=
  State.reset.run = .running ∧
  (∀ s t : State, step s = .next t → s.run = .running) ∧
  (∀ s : State, s.run ≠ .running → ∃ f, step s = .fault f) ∧
  (∀ s t : State, step s = .next t → t.run = .halted → ∃ w s1, fetch s = .ok (w, s1) ∧ decode w = .ok .trapHalt) ∧
  ∀ (s t : State) (r : FaultReason), step s = .next t → t.run = .faulted r → ∃ w s1, fetch s = .ok (w, s1) ∧
    ((decode w = .ok .rti ∧ r = .unusedOpcode .rti) ∨ (decode w = .ok .res ∧ r = .unusedOpcode .res) ∨
      ∃ v, decode w = .ok (.trapUnrecognized v) ∧ r = .badTrap v)

/-- Taking a fault sets run to FAULTED(reason) and changes nothing else; the faulting instruction had no effect but its
fetch (R151). raise Fault(reason) changes run only. A step that ends FAULTED(r) gives exactly the state after the
fetch (pc = the faulting address plus 1) with run = FAULTED(r). No step is taken from FAULTED. The exit status of
every FAULTED state is nonzero. -/
def Obligations.FaultChangesOnlyTheRunState : Prop :=
  (∀ (r : FaultReason) (s : State), raiseFault r s = { s with run := .faulted r }) ∧
  (∀ (s t : State) (r : FaultReason), step s = .next t → t.run = .faulted r →
    ∃ w s1, fetch s = .ok (w, s1) ∧ s1.pc = s.pc + 1#16 ∧ t = { s1 with run := .faulted r }) ∧
  (∀ (s t : State) (r : FaultReason), s.run = .faulted r → step s ≠ .next t) ∧
  ∀ r : FaultReason, ∃ n, exitStatus (.faulted r) = some n ∧ n ≠ 0

/-- In RUNNING a step always completes, but for an input that ended under Block or never comes and a string with no zero
cell (R41, R51, R68, R44, R123, R125, R150, R177). There are no memory, alignment, arithmetic or privilege faults and
no refused word: from a RUNNING state a step that gives no next state either asked for a character after the input had
ended under Block (log 3), or asked for one that the host never supplies (the free value of log 2), or ran PUTS or
PUTSP with no zero cell in memory (log 12). -/
def Obligations.RunningStepStopsOnlyForInputOrEndlessString : Prop :=
  ∀ s : State, s.run = .running → (∀ t, step s ≠ .next t) →
    (step s = .fault .inputExhausted ∧ s.input = [] ∧ s.inputEnded = true ∧ s.eofPolicy = .block) ∨
    (step s = .fault .inputUnanswered ∧ s.input = [] ∧ s.inputEnded = false ∧ Config.hostChar s.inputPos = none) ∨
    (step s = .fault .endlessString ∧ ∀ a, s.cell a ≠ 0x0000#16)

/-- Every instruction leaves every general register but its destination unchanged (R21, R20). When any instruction gives a
next state, each general register other than its DR (ADD, AND, NOT, LD, LDI, LDR, LEA), R7 (JSR, JSRR) or R0 (GETC,
IN) holds what it held; the other instructions write no register. -/
def Obligations.OnlyDestinationRegisterIsWritten : Prop :=
  ∀ (i : Instr) (s t : State) (r : Reg), exec i s = .next t → destination i ≠ some r → t.reg r = s.reg r

/-- cond is the flag of the written result after ADD, AND, NOT, LD, LDI, LDR, LEA, and unchanged after every other
instruction (R28, R27). When a flag-setting instruction gives a next state, cond there is the flag of its destination
register there; when any other instruction gives a next state, the TRAP routines included (D9, log 10), cond is
unchanged. -/
def Obligations.CondWrittenOnlyByFlagSettingInstructions : Prop :=
  (∀ (i : Instr) (s t : State) (r : Reg), exec i s = .next t → setsFlags i = true → destination i = some r →
    t.cond = signFlag (t.reg r)) ∧
  ∀ (i : Instr) (s t : State), exec i s = .next t → setsFlags i = false → t.cond = s.cond

/-- Changing cond changes nothing an instruction other than BR does, except cond itself where it is not written (R29). For
every instruction but BR and every value c: with cond replaced by c, the instruction gives the same outcome, the next
state having the same cond if it sets flags and c otherwise, and all else equal. So no instruction but BR reads cond
or moves it to a register or to memory. -/
def Obligations.CondIsReadOnlyByBranch : Prop :=
  ∀ (i : Instr) (s : State) (c : BitVec 3), (∀ nzp offset9, i ≠ .br nzp offset9) →
    (∀ t, exec i s = .next t →
      exec i { s with cond := c } = .next (if setsFlags i = true then t else { t with cond := c })) ∧
    ∀ f, exec i s = .fault f → exec i { s with cond := c } = .fault f

/-- Every cell is unchanged except the one an instruction stores to and the keyboard cells when it reads 0xFE00 (R48, R43,
R46, R50). When any instruction gives a next state, a cell reads as before unless it is the address that ST, STI or
STR stores to (computed as their meanings compute it), or it is 0xFE00 or 0xFE02 and the instruction read 0xFE00. The
stored cell holds x[SR]. -/
def Obligations.OnlyStoredAndKeyboardCellsChange : Prop :=
  (∀ (i : Instr) (s t : State) (a : Word), exec i s = .next t → storeAddress i s ≠ some a →
    (0xFE00#16 ∈ dataReads i s → a ≠ 0xFE00#16 ∧ a ≠ 0xFE02#16) → t.cell a = s.cell a) ∧
  ∀ (i : Instr) (s t : State) (a : Word) (sr : Reg), exec i s = .next t → storeAddress i s = some a →
    ((∃ o, i = .st sr o) ∨ (∃ o, i = .sti sr o) ∨ ∃ b o, i = .str sr b o) → t.cell a = s.reg sr

/-- OutChar appends in order; Flush changes no byte; the flush points are exactly PUTS, PUTSP, GETC and HALT (R128).
OutChar(b) appends b to the output stream and changes nothing else; successive calls append in their order. Flush
changes only the flush mark, to the whole output so far. After any instruction that gives a next state, everything
appended is flushed if it is PUTS, PUTSP, GETC or HALT, and the mark is unchanged otherwise. -/
def Obligations.OutputIsFlushedExactlyAtFlushPoints : Prop :=
  (∀ (b : Byte) (s : State), outChar b s = { s with output := s.output ++ [b] }) ∧
  (∀ (b c : Byte) (s : State), (outChar c (outChar b s)).output = s.output ++ [b, c]) ∧
  (∀ s : State, flush s = { s with flushed := s.output.length }) ∧
  ∀ (i : Instr) (s t : State), exec i s = .next t →
    t.flushed = if i = .trapPuts ∨ i = .trapPutsp ∨ i = .trapGetc ∨ i = .trapHalt then t.output.length else s.flushed

/-- Output is only appended to, by OUT, PUTS, IN and PUTSP; input is consumed only where asked for, one character an
instruction (R32, R33, R35, R152, R159). When any instruction gives a next state: the output has the old output as its
beginning, and is unchanged unless it is OUT, PUTS, IN or PUTSP; input queue and position are unchanged unless it is
GETC, IN or a read of 0xFE00; if it is, and a character is supplied or the sequence has not ended, exactly one
character is consumed; the launch and host fields eofPolicy and inputEnded never change. -/
def Obligations.ConsoleAndHostFieldsFrame : Prop :=
  ∀ (i : Instr) (s t : State), exec i s = .next t →
    (∃ more, t.output = s.output ++ more) ∧ (mayOutput i = false → t.output = s.output) ∧
    (¬ asksForInput i s → t.input = s.input ∧ t.inputPos = s.inputPos) ∧
    (asksForInput i s → s.input ≠ [] ∨ s.inputEnded = false →
      t.input = s.input.tail ∧ t.inputPos = s.inputPos + 1) ∧
    t.eofPolicy = s.eofPolicy ∧ t.inputEnded = s.inputEnded

/-- Every step keeps the invariant: canonical memory, at most one condition flag, no more flushed than output (R26, R31,
R33, R40, R128). For every state that meets the invariant, whether or not a run reaches it, if step gives a next state
then that state meets it: memory in canonical form (log 1) with every address below 65536, cond one of 0b000, 0b100,
0b010, 0b001, and flushed at most the number of output bytes (log 14). -/
def Obligations.StepKeepsTheRunInvariant : Prop :=
  ∀ s t : State, Inv s → step s = .next t → Inv t

/-- The reset state meets the invariant, and so does the launched state of every image (R170, R171). Inv holds at reset
and at every state that loadImage gives. -/
def Obligations.ResetMeetsTheRunInvariant : Prop :=
  Inv State.reset ∧ ∀ (bytes : List Byte) (s : State), loadImage bytes = .ok s → Inv s

/-- Once exactly one condition flag is active it stays so, and the first flag-setting instruction makes it so (R26, R27).
If exactly one of N, Z, P is active, it is so after every step; and after any flag-setting instruction that gives a
next state exactly one is active, whatever cond was. So 0b000 occurs only before the first flag update. -/
def Obligations.ExactlyOneFlagStaysActive : Prop :=
  (∀ s t : State, OneFlagActive s.cond → step s = .next t → OneFlagActive t.cond) ∧
  ∀ (i : Instr) (s t : State), setsFlags i = true → exec i s = .next t → OneFlagActive t.cond

/-- A step never retracts output or visible output, and consumes at most one character (R32, R33, R128). If step gives a
next state, the output has the old output as its beginning, the input position is the same or one more, and eofPolicy
and inputEnded are unchanged. Where no more is flushed than was appended (an invariant of every step), what the host
could see before it can still see. -/
def Obligations.StepOnlyAppendsOutputAndAdvancesInput : Prop :=
  ∀ s t : State, step s = .next t →
    (∃ more, t.output = s.output ++ more) ∧ (t.inputPos = s.inputPos ∨ t.inputPos = s.inputPos + 1) ∧
    t.eofPolicy = s.eofPolicy ∧ t.inputEnded = s.inputEnded ∧
    (s.flushed ≤ s.output.length → ∃ more, visibleOutput t = visibleOutput s ++ more)

/-- An abort stops a RUNNING engine, still RUNNING, with nothing half done but bytes of a PUTS or PUTSP that never ends
(R165). Whatever state an abort may leave (D20, log 17): run was RUNNING and still is; general registers, cond,
memory, input queue and position are those before the instruction, and the output has the old output as its beginning.
If anything differs (the incremented pc, some bytes), the engine fetched PUTS or PUTSP, its step never ends, and no
cell of memory is zero. -/
def Obligations.AbortLeavesNoInstructionHalfDone : Prop :=
  ∀ s t : State, MayAbortWith s t → s.run = .running ∧ t.run = .running ∧
    t.regs = s.regs ∧ t.cond = s.cond ∧ t.mem = s.mem ∧ t.input = s.input ∧ t.inputPos = s.inputPos ∧
    (∃ more, t.output = s.output ++ more) ∧
    (t ≠ s → step s = .fault .endlessString ∧ (∀ a, s.cell a ≠ 0x0000#16) ∧
      ∃ w s1, fetch s = .ok (w, s1) ∧ (decode w = .ok .trapPuts ∨ decode w = .ok .trapPutsp))

/-- GETC, IN and a read of 0xFE00 complete exactly when a character is there, the host answers, or Sentinel ends the input
(R129, R162, R163, R176, R177). In every state: GETC gives a next state, IN gives one and a MemRead at 0xFE00
completes if and only if a character is supplied, or the sequence has not ended and the host answers the request (the
free value of log 2), or it has ended under Sentinel (log 3). A character that the host supplies ends the wait: then
all three complete. So whether a run that asks for input goes on depends on the host. -/
def Obligations.InputRequestEndsExactlyWhenAnswered : Prop :=
  (∀ s : State, let answered := s.input ≠ [] ∨ (s.inputEnded = false ∧ Config.hostChar s.inputPos ≠ none) ∨
      (s.inputEnded = true ∧ s.eofPolicy = .sentinel);
    ((∃ t, exec .trapGetc s = .next t) ↔ answered) ∧ ((∃ t, exec .trapIn s = .next t) ↔ answered) ∧
    ((∃ v t, memRead 0xFE00#16 s = .ok (v, t)) ↔ answered)) ∧
  ∀ (s : State) (c : Byte), (∃ t, exec .trapGetc (supplyInput c s) = .next t) ∧
    (∃ t, exec .trapIn (supplyInput c s) = .next t) ∧ ∃ v t, memRead 0xFE00#16 (supplyInput c s) = .ok (v, t)
end

