-- ==== Sys2Proof/Laws/Decode.lean ====
section
/-! SUPPORT. The small facts of decoding: a register survives its field, and every TRAP selector has one row. -/

namespace Sys2Proof

@[simp] theorem regOfBits_regBits (r : Reg) : regOfBits (regBits r) = r := by
  revert r; decide

@[simp] theorem regBits_regOfBits (b : BitVec 3) : regBits (regOfBits b) = b := by
  revert b; decide

/-- A selector with a routine is one of the six (spec/43_trap.md R120). -/
theorem isServiceSelector_iff (v : BitVec 8) :
    isServiceSelector v = true ↔
      v = 0x20#8 ∨ v = 0x21#8 ∨ v = 0x22#8 ∨ v = 0x23#8 ∨ v = 0x24#8 ∨ v = 0x25#8 := by
  revert v; decide

/-- Outside the six selectors the row is the unrecognized one (R127). -/
theorem decodeTrap_of_not_service {v : BitVec 8} (h : isServiceSelector v = false) :
    decodeTrap v = .trapUnrecognized v := by
  have h' := mt (isServiceSelector_iff v).mpr (by simp [h])
  simp only [not_or] at h'
  obtain ⟨h0, h1, h2, h3, h4, h5⟩ := h'
  simp [decodeTrap, h0, h1, h2, h3, h4, h5]

end Sys2Proof
end

