-- ==== Sys2Proof/Laws/Memory.lean ====
section
/-! SUPPORT. The laws of memory as data: read after write, and that every memory operation keeps the canonical form. -/

namespace Sys2Proof.Machine

@[simp] theorem Memory.read_nil (a : Nat) : Memory.read [] a = 0x0000#16 := rfl

theorem Memory.read_cons (k : Nat) (v : Word) (m : Memory) (a : Nat) :
    Memory.read ((k, v) :: m) a = if k = a then v else Memory.read m a := rfl

theorem Memory.read_without_same (m : Memory) (a : Nat) : (m.without a).read a = 0x0000#16 := by
  induction m with
  | nil => rfl
  | cons cell rest ih =>
    obtain ⟨k, v⟩ := cell
    by_cases h : k = a
    · simpa [Memory.without, h] using ih
    · simpa [Memory.without, Memory.read_cons, h] using ih

theorem Memory.read_without_of_ne (m : Memory) {a b : Nat} (h : b ≠ a) : (m.without a).read b = m.read b := by
  induction m with
  | nil => rfl
  | cons cell rest ih =>
    obtain ⟨k, v⟩ := cell
    by_cases hk : k = a
    · have hkb : k ≠ b := by rintro rfl; exact h hk
      subst hk
      simpa [Memory.without, Memory.read_cons, hkb] using ih
    · have : Memory.without ((k, v) :: rest) a = (k, v) :: Memory.without rest a := by simp [Memory.without, hk]
      rw [this, Memory.read_cons, Memory.read_cons, ih]

theorem Memory.read_place_of_ne (m : Memory) {a b : Nat} (v : Word) (h : b ≠ a) :
    (Memory.place a v m).read b = m.read b := by
  induction m with
  | nil => simp [Memory.place, Memory.read_cons, h.symm]
  | cons cell rest ih =>
    obtain ⟨k, w⟩ := cell
    by_cases hk : a < k
    · simp [Memory.place, hk, Memory.read_cons, h.symm]
    · simp [Memory.place, hk, Memory.read_cons, ih]

/-- No entry of the memory is at the address. -/
abbrev Memory.lacks (m : Memory) (a : Nat) : Prop := ∀ cell ∈ m, cell.1 ≠ a

theorem Memory.without_lacks (m : Memory) (a : Nat) : (m.without a).lacks a := by
  intro cell h
  simpa using (List.mem_filter.mp h).2

theorem Memory.read_place_same (m : Memory) {a : Nat} (v : Word) (h : m.lacks a) : (Memory.place a v m).read a = v := by
  induction m with
  | nil => simp [Memory.place, Memory.read_cons]
  | cons cell rest ih =>
    obtain ⟨k, w⟩ := cell
    have hk : k ≠ a := h (k, w) (by simp)
    have hrest := ih (fun c hc => h c (List.mem_cons_of_mem _ hc))
    by_cases hak : a < k <;> simp [Memory.place, hak, Memory.read_cons, hk, hrest]

/-- Read after write, at every pair of addresses and in every memory. -/
theorem Memory.read_write (m : Memory) (a b : Nat) (v : Word) :
    (m.write a v).read b = if b = a then v else m.read b := by
  unfold Memory.write
  by_cases hv : v = Memory.unlisted <;> by_cases hb : b = a
  · subst hb; simp [hv, Memory.read_without_same, Memory.unlisted]
  · simp [hv, hb, Memory.read_without_of_ne]
  · subst hb; simp [hv, Memory.read_place_same _ _ (Memory.without_lacks m b)]
  · simp [hv, hb, Memory.read_place_of_ne, Memory.read_without_of_ne]

theorem Memory.mem_place {m : Memory} {a : Nat} {v : Word} {cell : Nat × Word} (h : cell ∈ Memory.place a v m) :
    cell = (a, v) ∨ cell ∈ m := by
  induction m with
  | nil => simpa [Memory.place] using h
  | cons c rest ih =>
    by_cases hc : a < c.1
    · simpa [Memory.place, hc] using h
    · simp only [Memory.place, hc, ↓reduceIte, List.mem_cons] at h ⊢
      rcases h with h | h
      · exact .inr (.inl h)
      · exact (ih h).imp id .inr

theorem Memory.place_pairwise {m : Memory} {a : Nat} (v : Word) (hm : m.Pairwise (fun x y => x.1 < y.1))
    (ha : m.lacks a) : (Memory.place a v m).Pairwise (fun x y => x.1 < y.1) := by
  induction m with
  | nil => simp [Memory.place]
  | cons c rest ih =>
    rw [List.pairwise_cons] at hm
    have hca : c.1 ≠ a := ha c (by simp)
    by_cases hc : a < c.1
    · simp only [Memory.place, hc, ↓reduceIte, List.pairwise_cons]
      refine ⟨?_, hm.1, hm.2⟩
      rintro y (_ | ⟨_, hy⟩)
      · exact hc
      · exact hc.trans (hm.1 y hy)
    · simp only [Memory.place, hc, ↓reduceIte, List.pairwise_cons]
      refine ⟨fun y hy => ?_, ih hm.2 (fun c' h' => ha c' (List.mem_cons_of_mem _ h'))⟩
      rcases Memory.mem_place hy with rfl | hy
      · exact lt_of_le_of_ne (Nat.le_of_not_lt hc) hca
      · exact hm.1 y hy

theorem Memory.wf_nil : Memory.wf [] := by simp [Memory.wf]

theorem Memory.wf_without {m : Memory} (h : m.wf) (a : Nat) : (m.without a).wf :=
  ⟨h.1.filter _, fun cell hc => h.2 cell (List.mem_of_mem_filter hc)⟩

/-- Every write inside the address space keeps the canonical form. -/
theorem Memory.wf_write {m : Memory} (h : m.wf) {a : Nat} (ha : a < Config.memCells) (v : Word) : (m.write a v).wf := by
  unfold Memory.write
  have hw := Memory.wf_without h a
  by_cases hv : v = Memory.unlisted
  · simpa [hv] using hw
  · simp only [hv, ↓reduceIte]
    refine ⟨Memory.place_pairwise v hw.1 (Memory.without_lacks m a), fun cell hc => ?_⟩
    rcases Memory.mem_place hc with rfl | hc
    · exact ⟨ha, hv⟩
    · exact hw.2 cell hc

theorem memWrite_wf {s : State} (h : s.mem.wf) (a v : Word) : (memWrite a v s).mem.wf :=
  Memory.wf_write h a.isLt v

theorem reset_memory_wf : State.reset.mem.wf := Memory.wf_nil

end Sys2Proof.Machine
end

