-- ==== Sys2Proof/Laws/State.lean ====
section
/-! SUPPORT. One lemma per field per update of the state, each true by unfolding, so that no proof unfolds a record update; and
what a register or a cell reads as after each update. -/

namespace Sys2Proof.Machine

/-! ### setReg -/

@[simp] theorem setReg_regs (r : Reg) (v : Word) (s : State) : (setReg r v s).regs = s.regs.set r v := rfl
@[simp] theorem setReg_pc (r : Reg) (v : Word) (s : State) : (setReg r v s).pc = s.pc := rfl
@[simp] theorem setReg_cond (r : Reg) (v : Word) (s : State) : (setReg r v s).cond = s.cond := rfl
@[simp] theorem setReg_run (r : Reg) (v : Word) (s : State) : (setReg r v s).run = s.run := rfl
@[simp] theorem setReg_mem (r : Reg) (v : Word) (s : State) : (setReg r v s).mem = s.mem := rfl
@[simp] theorem setReg_input (r : Reg) (v : Word) (s : State) : (setReg r v s).input = s.input := rfl
@[simp] theorem setReg_inputPos (r : Reg) (v : Word) (s : State) : (setReg r v s).inputPos = s.inputPos := rfl
@[simp] theorem setReg_inputEnded (r : Reg) (v : Word) (s : State) : (setReg r v s).inputEnded = s.inputEnded := rfl
@[simp] theorem setReg_eofPolicy (r : Reg) (v : Word) (s : State) : (setReg r v s).eofPolicy = s.eofPolicy := rfl
@[simp] theorem setReg_output (r : Reg) (v : Word) (s : State) : (setReg r v s).output = s.output := rfl
@[simp] theorem setReg_flushed (r : Reg) (v : Word) (s : State) : (setReg r v s).flushed = s.flushed := rfl
@[simp] theorem setReg_cell (r : Reg) (v : Word) (s : State) (q : Word) : (setReg r v s).cell q = s.cell q := rfl

/-! ### setPc -/

@[simp] theorem setPc_regs (target : Word) (s : State) : (setPc target s).regs = s.regs := rfl
@[simp] theorem setPc_pc (target : Word) (s : State) : (setPc target s).pc = target := rfl
@[simp] theorem setPc_cond (target : Word) (s : State) : (setPc target s).cond = s.cond := rfl
@[simp] theorem setPc_run (target : Word) (s : State) : (setPc target s).run = s.run := rfl
@[simp] theorem setPc_mem (target : Word) (s : State) : (setPc target s).mem = s.mem := rfl
@[simp] theorem setPc_input (target : Word) (s : State) : (setPc target s).input = s.input := rfl
@[simp] theorem setPc_inputPos (target : Word) (s : State) : (setPc target s).inputPos = s.inputPos := rfl
@[simp] theorem setPc_inputEnded (target : Word) (s : State) : (setPc target s).inputEnded = s.inputEnded := rfl
@[simp] theorem setPc_eofPolicy (target : Word) (s : State) : (setPc target s).eofPolicy = s.eofPolicy := rfl
@[simp] theorem setPc_output (target : Word) (s : State) : (setPc target s).output = s.output := rfl
@[simp] theorem setPc_flushed (target : Word) (s : State) : (setPc target s).flushed = s.flushed := rfl
@[simp] theorem setPc_reg (target : Word) (s : State) (q : Reg) : (setPc target s).reg q = s.reg q := rfl
@[simp] theorem setPc_cell (target : Word) (s : State) (q : Word) : (setPc target s).cell q = s.cell q := rfl

/-! ### memWrite -/

@[simp] theorem memWrite_regs (a v : Word) (s : State) : (memWrite a v s).regs = s.regs := rfl
@[simp] theorem memWrite_pc (a v : Word) (s : State) : (memWrite a v s).pc = s.pc := rfl
@[simp] theorem memWrite_cond (a v : Word) (s : State) : (memWrite a v s).cond = s.cond := rfl
@[simp] theorem memWrite_run (a v : Word) (s : State) : (memWrite a v s).run = s.run := rfl
@[simp] theorem memWrite_mem (a v : Word) (s : State) : (memWrite a v s).mem = s.mem.write a.toNat v := rfl
@[simp] theorem memWrite_input (a v : Word) (s : State) : (memWrite a v s).input = s.input := rfl
@[simp] theorem memWrite_inputPos (a v : Word) (s : State) : (memWrite a v s).inputPos = s.inputPos := rfl
@[simp] theorem memWrite_inputEnded (a v : Word) (s : State) : (memWrite a v s).inputEnded = s.inputEnded := rfl
@[simp] theorem memWrite_eofPolicy (a v : Word) (s : State) : (memWrite a v s).eofPolicy = s.eofPolicy := rfl
@[simp] theorem memWrite_output (a v : Word) (s : State) : (memWrite a v s).output = s.output := rfl
@[simp] theorem memWrite_flushed (a v : Word) (s : State) : (memWrite a v s).flushed = s.flushed := rfl
@[simp] theorem memWrite_reg (a v : Word) (s : State) (q : Reg) : (memWrite a v s).reg q = s.reg q := rfl

/-! ### outChar -/

@[simp] theorem outChar_regs (b : Byte) (s : State) : (outChar b s).regs = s.regs := rfl
@[simp] theorem outChar_pc (b : Byte) (s : State) : (outChar b s).pc = s.pc := rfl
@[simp] theorem outChar_cond (b : Byte) (s : State) : (outChar b s).cond = s.cond := rfl
@[simp] theorem outChar_run (b : Byte) (s : State) : (outChar b s).run = s.run := rfl
@[simp] theorem outChar_mem (b : Byte) (s : State) : (outChar b s).mem = s.mem := rfl
@[simp] theorem outChar_input (b : Byte) (s : State) : (outChar b s).input = s.input := rfl
@[simp] theorem outChar_inputPos (b : Byte) (s : State) : (outChar b s).inputPos = s.inputPos := rfl
@[simp] theorem outChar_inputEnded (b : Byte) (s : State) : (outChar b s).inputEnded = s.inputEnded := rfl
@[simp] theorem outChar_eofPolicy (b : Byte) (s : State) : (outChar b s).eofPolicy = s.eofPolicy := rfl
@[simp] theorem outChar_output (b : Byte) (s : State) : (outChar b s).output = s.output ++ [b] := rfl
@[simp] theorem outChar_flushed (b : Byte) (s : State) : (outChar b s).flushed = s.flushed := rfl
@[simp] theorem outChar_reg (b : Byte) (s : State) (q : Reg) : (outChar b s).reg q = s.reg q := rfl
@[simp] theorem outChar_cell (b : Byte) (s : State) (q : Word) : (outChar b s).cell q = s.cell q := rfl

/-! ### outBytes -/

@[simp] theorem outBytes_regs (bs : List Byte) (s : State) : (outBytes bs s).regs = s.regs := rfl
@[simp] theorem outBytes_pc (bs : List Byte) (s : State) : (outBytes bs s).pc = s.pc := rfl
@[simp] theorem outBytes_cond (bs : List Byte) (s : State) : (outBytes bs s).cond = s.cond := rfl
@[simp] theorem outBytes_run (bs : List Byte) (s : State) : (outBytes bs s).run = s.run := rfl
@[simp] theorem outBytes_mem (bs : List Byte) (s : State) : (outBytes bs s).mem = s.mem := rfl
@[simp] theorem outBytes_input (bs : List Byte) (s : State) : (outBytes bs s).input = s.input := rfl
@[simp] theorem outBytes_inputPos (bs : List Byte) (s : State) : (outBytes bs s).inputPos = s.inputPos := rfl
@[simp] theorem outBytes_inputEnded (bs : List Byte) (s : State) : (outBytes bs s).inputEnded = s.inputEnded := rfl
@[simp] theorem outBytes_eofPolicy (bs : List Byte) (s : State) : (outBytes bs s).eofPolicy = s.eofPolicy := rfl
@[simp] theorem outBytes_output (bs : List Byte) (s : State) : (outBytes bs s).output = s.output ++ bs := rfl
@[simp] theorem outBytes_flushed (bs : List Byte) (s : State) : (outBytes bs s).flushed = s.flushed := rfl
@[simp] theorem outBytes_reg (bs : List Byte) (s : State) (q : Reg) : (outBytes bs s).reg q = s.reg q := rfl
@[simp] theorem outBytes_cell (bs : List Byte) (s : State) (q : Word) : (outBytes bs s).cell q = s.cell q := rfl

/-! ### flush -/

@[simp] theorem flush_regs (s : State) : (flush s).regs = s.regs := rfl
@[simp] theorem flush_pc (s : State) : (flush s).pc = s.pc := rfl
@[simp] theorem flush_cond (s : State) : (flush s).cond = s.cond := rfl
@[simp] theorem flush_run (s : State) : (flush s).run = s.run := rfl
@[simp] theorem flush_mem (s : State) : (flush s).mem = s.mem := rfl
@[simp] theorem flush_input (s : State) : (flush s).input = s.input := rfl
@[simp] theorem flush_inputPos (s : State) : (flush s).inputPos = s.inputPos := rfl
@[simp] theorem flush_inputEnded (s : State) : (flush s).inputEnded = s.inputEnded := rfl
@[simp] theorem flush_eofPolicy (s : State) : (flush s).eofPolicy = s.eofPolicy := rfl
@[simp] theorem flush_output (s : State) : (flush s).output = s.output := rfl
@[simp] theorem flush_flushed (s : State) : (flush s).flushed = s.output.length := rfl
@[simp] theorem flush_reg (s : State) (q : Reg) : (flush s).reg q = s.reg q := rfl
@[simp] theorem flush_cell (s : State) (q : Word) : (flush s).cell q = s.cell q := rfl

/-! ### halt -/

@[simp] theorem halt_regs (s : State) : (halt s).regs = s.regs := rfl
@[simp] theorem halt_pc (s : State) : (halt s).pc = s.pc := rfl
@[simp] theorem halt_cond (s : State) : (halt s).cond = s.cond := rfl
@[simp] theorem halt_run (s : State) : (halt s).run = .halted := rfl
@[simp] theorem halt_mem (s : State) : (halt s).mem = s.mem := rfl
@[simp] theorem halt_input (s : State) : (halt s).input = s.input := rfl
@[simp] theorem halt_inputPos (s : State) : (halt s).inputPos = s.inputPos := rfl
@[simp] theorem halt_inputEnded (s : State) : (halt s).inputEnded = s.inputEnded := rfl
@[simp] theorem halt_eofPolicy (s : State) : (halt s).eofPolicy = s.eofPolicy := rfl
@[simp] theorem halt_output (s : State) : (halt s).output = s.output := rfl
@[simp] theorem halt_flushed (s : State) : (halt s).flushed = s.flushed := rfl
@[simp] theorem halt_reg (s : State) (q : Reg) : (halt s).reg q = s.reg q := rfl
@[simp] theorem halt_cell (s : State) (q : Word) : (halt s).cell q = s.cell q := rfl

/-! ### raiseFault -/

@[simp] theorem raiseFault_regs (reason : FaultReason) (s : State) : (raiseFault reason s).regs = s.regs := rfl
@[simp] theorem raiseFault_pc (reason : FaultReason) (s : State) : (raiseFault reason s).pc = s.pc := rfl
@[simp] theorem raiseFault_cond (reason : FaultReason) (s : State) : (raiseFault reason s).cond = s.cond := rfl
@[simp] theorem raiseFault_run (reason : FaultReason) (s : State) : (raiseFault reason s).run = .faulted reason := rfl
@[simp] theorem raiseFault_mem (reason : FaultReason) (s : State) : (raiseFault reason s).mem = s.mem := rfl
@[simp] theorem raiseFault_input (reason : FaultReason) (s : State) : (raiseFault reason s).input = s.input := rfl
@[simp] theorem raiseFault_inputPos (reason : FaultReason) (s : State) : (raiseFault reason s).inputPos = s.inputPos := rfl
@[simp] theorem raiseFault_inputEnded (reason : FaultReason) (s : State) : (raiseFault reason s).inputEnded = s.inputEnded := rfl
@[simp] theorem raiseFault_eofPolicy (reason : FaultReason) (s : State) : (raiseFault reason s).eofPolicy = s.eofPolicy := rfl
@[simp] theorem raiseFault_output (reason : FaultReason) (s : State) : (raiseFault reason s).output = s.output := rfl
@[simp] theorem raiseFault_flushed (reason : FaultReason) (s : State) : (raiseFault reason s).flushed = s.flushed := rfl
@[simp] theorem raiseFault_reg (reason : FaultReason) (s : State) (q : Reg) : (raiseFault reason s).reg q = s.reg q := rfl
@[simp] theorem raiseFault_cell (reason : FaultReason) (s : State) (q : Word) : (raiseFault reason s).cell q = s.cell q := rfl

/-! ### setcc -/

@[simp] theorem setcc_regs (r : Reg) (s : State) : (setcc r s).regs = s.regs := rfl
@[simp] theorem setcc_pc (r : Reg) (s : State) : (setcc r s).pc = s.pc := rfl
@[simp] theorem setcc_cond (r : Reg) (s : State) : (setcc r s).cond = condOf (s.reg r) := rfl
@[simp] theorem setcc_run (r : Reg) (s : State) : (setcc r s).run = s.run := rfl
@[simp] theorem setcc_mem (r : Reg) (s : State) : (setcc r s).mem = s.mem := rfl
@[simp] theorem setcc_input (r : Reg) (s : State) : (setcc r s).input = s.input := rfl
@[simp] theorem setcc_inputPos (r : Reg) (s : State) : (setcc r s).inputPos = s.inputPos := rfl
@[simp] theorem setcc_inputEnded (r : Reg) (s : State) : (setcc r s).inputEnded = s.inputEnded := rfl
@[simp] theorem setcc_eofPolicy (r : Reg) (s : State) : (setcc r s).eofPolicy = s.eofPolicy := rfl
@[simp] theorem setcc_output (r : Reg) (s : State) : (setcc r s).output = s.output := rfl
@[simp] theorem setcc_flushed (r : Reg) (s : State) : (setcc r s).flushed = s.flushed := rfl
@[simp] theorem setcc_reg (r : Reg) (s : State) (q : Reg) : (setcc r s).reg q = s.reg q := rfl
@[simp] theorem setcc_cell (r : Reg) (s : State) (q : Word) : (setcc r s).cell q = s.cell q := rfl

/-! ### writeResult -/

@[simp] theorem writeResult_regs (dr : Reg) (v : Word) (s : State) : (writeResult dr v s).regs = s.regs.set dr v := rfl
@[simp] theorem writeResult_pc (dr : Reg) (v : Word) (s : State) : (writeResult dr v s).pc = s.pc := rfl
@[simp] theorem writeResult_run (dr : Reg) (v : Word) (s : State) : (writeResult dr v s).run = s.run := rfl
@[simp] theorem writeResult_mem (dr : Reg) (v : Word) (s : State) : (writeResult dr v s).mem = s.mem := rfl
@[simp] theorem writeResult_input (dr : Reg) (v : Word) (s : State) : (writeResult dr v s).input = s.input := rfl
@[simp] theorem writeResult_inputPos (dr : Reg) (v : Word) (s : State) : (writeResult dr v s).inputPos = s.inputPos := rfl
@[simp] theorem writeResult_inputEnded (dr : Reg) (v : Word) (s : State) : (writeResult dr v s).inputEnded = s.inputEnded := rfl
@[simp] theorem writeResult_eofPolicy (dr : Reg) (v : Word) (s : State) : (writeResult dr v s).eofPolicy = s.eofPolicy := rfl
@[simp] theorem writeResult_output (dr : Reg) (v : Word) (s : State) : (writeResult dr v s).output = s.output := rfl
@[simp] theorem writeResult_flushed (dr : Reg) (v : Word) (s : State) : (writeResult dr v s).flushed = s.flushed := rfl
@[simp] theorem writeResult_cell (dr : Reg) (v : Word) (s : State) (q : Word) : (writeResult dr v s).cell q = s.cell q := rfl

/-! ### linkR7 -/

@[simp] theorem linkR7_regs (s : State) : (linkR7 s).regs = s.regs.set 7 s.pc := rfl
@[simp] theorem linkR7_pc (s : State) : (linkR7 s).pc = s.pc := rfl
@[simp] theorem linkR7_cond (s : State) : (linkR7 s).cond = s.cond := rfl
@[simp] theorem linkR7_run (s : State) : (linkR7 s).run = s.run := rfl
@[simp] theorem linkR7_mem (s : State) : (linkR7 s).mem = s.mem := rfl
@[simp] theorem linkR7_input (s : State) : (linkR7 s).input = s.input := rfl
@[simp] theorem linkR7_inputPos (s : State) : (linkR7 s).inputPos = s.inputPos := rfl
@[simp] theorem linkR7_inputEnded (s : State) : (linkR7 s).inputEnded = s.inputEnded := rfl
@[simp] theorem linkR7_eofPolicy (s : State) : (linkR7 s).eofPolicy = s.eofPolicy := rfl
@[simp] theorem linkR7_output (s : State) : (linkR7 s).output = s.output := rfl
@[simp] theorem linkR7_flushed (s : State) : (linkR7 s).flushed = s.flushed := rfl
@[simp] theorem linkR7_cell (s : State) (q : Word) : (linkR7 s).cell q = s.cell q := rfl

/-! ### keyboardLatched -/

@[simp] theorem keyboardLatched_regs (c : Word) (s : State) : (keyboardLatched c s).regs = s.regs := rfl
@[simp] theorem keyboardLatched_pc (c : Word) (s : State) : (keyboardLatched c s).pc = s.pc := rfl
@[simp] theorem keyboardLatched_cond (c : Word) (s : State) : (keyboardLatched c s).cond = s.cond := rfl
@[simp] theorem keyboardLatched_run (c : Word) (s : State) : (keyboardLatched c s).run = s.run := rfl
@[simp] theorem keyboardLatched_mem (c : Word) (s : State) : (keyboardLatched c s).mem = (s.mem.write 0xFE02 c).write 0xFE00 0x8000#16 := rfl
@[simp] theorem keyboardLatched_input (c : Word) (s : State) : (keyboardLatched c s).input = s.input := rfl
@[simp] theorem keyboardLatched_inputPos (c : Word) (s : State) : (keyboardLatched c s).inputPos = s.inputPos := rfl
@[simp] theorem keyboardLatched_inputEnded (c : Word) (s : State) : (keyboardLatched c s).inputEnded = s.inputEnded := rfl
@[simp] theorem keyboardLatched_eofPolicy (c : Word) (s : State) : (keyboardLatched c s).eofPolicy = s.eofPolicy := rfl
@[simp] theorem keyboardLatched_output (c : Word) (s : State) : (keyboardLatched c s).output = s.output := rfl
@[simp] theorem keyboardLatched_flushed (c : Word) (s : State) : (keyboardLatched c s).flushed = s.flushed := rfl
@[simp] theorem keyboardLatched_reg (c : Word) (s : State) (q : Reg) : (keyboardLatched c s).reg q = s.reg q := rfl

/-! ### supplyInput -/

@[simp] theorem supplyInput_regs (c : Byte) (s : State) : (supplyInput c s).regs = s.regs := rfl
@[simp] theorem supplyInput_pc (c : Byte) (s : State) : (supplyInput c s).pc = s.pc := rfl
@[simp] theorem supplyInput_cond (c : Byte) (s : State) : (supplyInput c s).cond = s.cond := rfl
@[simp] theorem supplyInput_run (c : Byte) (s : State) : (supplyInput c s).run = s.run := rfl
@[simp] theorem supplyInput_mem (c : Byte) (s : State) : (supplyInput c s).mem = s.mem := rfl
@[simp] theorem supplyInput_input (c : Byte) (s : State) : (supplyInput c s).input = s.input ++ [c] := rfl
@[simp] theorem supplyInput_inputPos (c : Byte) (s : State) : (supplyInput c s).inputPos = s.inputPos := rfl
@[simp] theorem supplyInput_inputEnded (c : Byte) (s : State) : (supplyInput c s).inputEnded = s.inputEnded := rfl
@[simp] theorem supplyInput_eofPolicy (c : Byte) (s : State) : (supplyInput c s).eofPolicy = s.eofPolicy := rfl
@[simp] theorem supplyInput_output (c : Byte) (s : State) : (supplyInput c s).output = s.output := rfl
@[simp] theorem supplyInput_flushed (c : Byte) (s : State) : (supplyInput c s).flushed = s.flushed := rfl
@[simp] theorem supplyInput_reg (c : Byte) (s : State) (q : Reg) : (supplyInput c s).reg q = s.reg q := rfl
@[simp] theorem supplyInput_cell (c : Byte) (s : State) (q : Word) : (supplyInput c s).cell q = s.cell q := rfl

/-! ### endInput -/

@[simp] theorem endInput_regs (s : State) : (endInput s).regs = s.regs := rfl
@[simp] theorem endInput_pc (s : State) : (endInput s).pc = s.pc := rfl
@[simp] theorem endInput_cond (s : State) : (endInput s).cond = s.cond := rfl
@[simp] theorem endInput_run (s : State) : (endInput s).run = s.run := rfl
@[simp] theorem endInput_mem (s : State) : (endInput s).mem = s.mem := rfl
@[simp] theorem endInput_input (s : State) : (endInput s).input = s.input := rfl
@[simp] theorem endInput_inputPos (s : State) : (endInput s).inputPos = s.inputPos := rfl
@[simp] theorem endInput_inputEnded (s : State) : (endInput s).inputEnded = true := rfl
@[simp] theorem endInput_eofPolicy (s : State) : (endInput s).eofPolicy = s.eofPolicy := rfl
@[simp] theorem endInput_output (s : State) : (endInput s).output = s.output := rfl
@[simp] theorem endInput_flushed (s : State) : (endInput s).flushed = s.flushed := rfl
@[simp] theorem endInput_reg (s : State) (q : Reg) : (endInput s).reg q = s.reg q := rfl
@[simp] theorem endInput_cell (s : State) (q : Word) : (endInput s).cell q = s.cell q := rfl

/-! ### Reading a register or a cell after a write -/

@[simp] theorem setReg_reg (r : Reg) (v : Word) (s : State) (q : Reg) :
    (setReg r v s).reg q = if q = r then v else s.reg q := by
  simp only [State.reg, setReg_regs, Fin.getElem_fin, Vector.getElem_set, Fin.ext_iff, eq_comm]

@[simp] theorem writeResult_reg (dr : Reg) (v : Word) (s : State) (q : Reg) :
    (writeResult dr v s).reg q = if q = dr then v else s.reg q :=
  setReg_reg dr v s q

@[simp] theorem writeResult_cond (dr : Reg) (v : Word) (s : State) : (writeResult dr v s).cond = condOf v := by
  simp [writeResult]

/-- The written result and its flag, as one record update. -/
theorem writeResult_eq (dr : Reg) (v : Word) (s : State) :
    writeResult dr v s = { s with regs := s.regs.set dr v, cond := condOf v } := by
  show ({ s with regs := s.regs.set dr v, cond := condOf ((setReg dr v s).reg dr) } : State) = _
  simp

@[simp] theorem linkR7_reg (s : State) (q : Reg) : (linkR7 s).reg q = if q = 7 then s.pc else s.reg q :=
  setReg_reg 7 s.pc s q

/-- A store is seen at its own address and nowhere else (R46). -/
@[simp] theorem memWrite_cell (a v : Word) (s : State) (q : Word) :
    (memWrite a v s).cell q = if q = a then v else s.cell q := by
  simp only [State.cell, memWrite_mem, Memory.read_write, BitVec.toNat_inj]

/-- The keyboard cells after a status read, and every other cell (R43). -/
@[simp] theorem keyboardLatched_cell (c : Word) (s : State) (q : Word) :
    (keyboardLatched c s).cell q =
      if q = 0xFE00#16 then 0x8000#16 else if q = 0xFE02#16 then c else s.cell q := by
  simp [keyboardLatched]

theorem condOf_eq_signFlag (v : Word) : condOf v = signFlag v := by
  have hz : v = 0x0000#16 ↔ v.toInt = 0 := by
    rw [← BitVec.toInt_inj]; simp
  have hn : v.getLsbD 15 = true ↔ v.toInt < 0 := by
    have h : v.getLsbD 15 = decide (v.toInt < 0) := by
      rw [← BitVec.msb_eq_toInt, BitVec.msb_eq_getLsbD_last]
    rw [h, decide_eq_true_iff]
  simp only [condOf, signFlag, hz, hn]

end Sys2Proof.Machine
end

