-- ==== Sys2Proof/Laws/Ops.lean ====
section
/-! SUPPORT. One lemma per shared operation that says everything it can do; proofs cite these instead of unfolding the
operation. -/

namespace Sys2Proof.Machine

/-! ### Going on after an access -/

theorem afterAccess_next {α : Type} {r : Access α} {k : α → State → Host.Outcome State Fault Refusal} {t : State} :
    afterAccess r k = .next t ↔ ∃ v s1, r = .ok (v, s1) ∧ k v s1 = .next t := by
  rcases r with f | ⟨v, s1⟩ <;> simp [afterAccess]

theorem afterAccess_fault {α : Type} {r : Access α} {k : α → State → Host.Outcome State Fault Refusal} {f : Fault} :
    afterAccess r k = .fault f ↔ r = .error f ∨ ∃ v s1, r = .ok (v, s1) ∧ k v s1 = .fault f := by
  rcases r with g | ⟨v, s1⟩ <;> simp [afterAccess]

theorem afterAccess_refused {α : Type} {r : Access α} {k : α → State → Host.Outcome State Fault Refusal} {x : Refusal} :
    afterAccess r k = .refused x ↔ ∃ v s1, r = .ok (v, s1) ∧ k v s1 = .refused x := by
  rcases r with f | ⟨v, s1⟩ <;> simp [afterAccess]

/-! ### Input -/

/-- The three ways `InChar` completes: a supplied character, the host's answer to the request, the sentinel. -/
theorem inChar_ok {s s1 : State} {c : Word} :
    inChar s = .ok (c, s1) ↔
      (∃ ch rest, s.input = ch :: rest ∧ c = zext16 ch ∧ s1 = { s with input := rest, inputPos := s.inputPos + 1 }) ∨
      (s.input = [] ∧ s.inputEnded = false ∧ ∃ ch, Config.hostChar s.inputPos = some ch ∧ c = zext16 ch ∧
        s1 = { s with inputPos := s.inputPos + 1 }) ∨
      (s.input = [] ∧ s.inputEnded = true ∧ s.eofPolicy = .sentinel ∧ c = Config.eofSentinel ∧ s1 = s) := by
  unfold inChar
  rcases hi : s.input with _ | ⟨ch, rest⟩ <;> cases he : s.inputEnded <;> cases hp : s.eofPolicy <;>
    rcases hc : Config.hostChar s.inputPos with _ | ch' <;> simp [eq_comm]

/-- The two ways `InChar` never completes: the input has ended under Block; the host never answers. -/
theorem inChar_error {s : State} {f : Fault} :
    inChar s = .error f ↔
      s.input = [] ∧
        ((f = .inputExhausted ∧ s.inputEnded = true ∧ s.eofPolicy = .block) ∨
          (f = .inputUnanswered ∧ s.inputEnded = false ∧ Config.hostChar s.inputPos = none)) := by
  unfold inChar
  rcases hi : s.input with _ | ⟨ch, rest⟩ <;> cases he : s.inputEnded <;> cases hp : s.eofPolicy <;>
    rcases hc : Config.hostChar s.inputPos with _ | ch' <;> simp [eq_comm]

/-- `InChar` touches nothing but the input queue and position. -/
theorem inChar_frame {s s1 : State} {c : Word} (h : inChar s = .ok (c, s1)) :
    s1 = { s with input := s1.input, inputPos := s1.inputPos } := by
  rcases inChar_ok.mp h with ⟨_, _, _, _, rfl⟩ | ⟨_, _, _, _, _, rfl⟩ | ⟨_, _, _, _, rfl⟩ <;> rfl

/-- `InChar` consumes at most one character. -/
theorem inChar_position {s s1 : State} {c : Word} (h : inChar s = .ok (c, s1)) :
    s1.inputPos = s.inputPos + 1 ∨ s1.inputPos = s.inputPos := by
  rcases inChar_ok.mp h with ⟨_, _, _, _, rfl⟩ | ⟨_, _, _, _, _, rfl⟩ | ⟨_, _, _, _, rfl⟩ <;> simp

/-! ### Memory reads -/

theorem memRead_of_ne {a : Word} (h : a ≠ 0xFE00#16) (s : State) : memRead a s = .ok (s.cell a, s) := by
  simp [memRead, Config.kbsrAddr, h]

theorem memRead_kbsr_of_ok {s s1 : State} {c : Word} (h : inChar s = .ok (c, s1)) :
    memRead 0xFE00#16 s = .ok (0x8000#16, keyboardLatched c s1) := by
  have hk : keyboardStatusRead s = .ok (keyboardLatched c s1) := by simp only [keyboardStatusRead, h]; rfl
  simp only [memRead, Config.kbsrAddr, hk]
  simp

theorem memRead_kbsr_of_error {s : State} {f : Fault} (h : inChar s = .error f) :
    memRead 0xFE00#16 s = .error f := by
  simp [memRead, Config.kbsrAddr, keyboardStatusRead, h]

/-- The two ways a `MemRead` completes (R42, R43). -/
theorem memRead_ok {a v : Word} {s t : State} :
    memRead a s = .ok (v, t) ↔
      (a ≠ 0xFE00#16 ∧ v = s.cell a ∧ t = s) ∨
      (a = 0xFE00#16 ∧ v = 0x8000#16 ∧ ∃ c s1, inChar s = .ok (c, s1) ∧ t = keyboardLatched c s1) := by
  by_cases ha : a = 0xFE00#16
  · subst ha
    rcases h : inChar s with f | ⟨c, s1⟩
    · simp [memRead_kbsr_of_error h]
    · simp only [memRead_kbsr_of_ok h, Except.ok.injEq, Prod.mk.injEq, ne_eq, not_true_eq_false, false_and, true_and,
        false_or]
      constructor
      · rintro ⟨rfl, rfl⟩; exact ⟨rfl, c, s1, ⟨rfl, rfl⟩, rfl⟩
      · rintro ⟨rfl, c', s1', ⟨rfl, rfl⟩, rfl⟩; exact ⟨rfl, rfl⟩
  · simp [memRead_of_ne ha, ha, eq_comm]

/-- The one place where a `MemRead` may never complete (R44, R177). -/
theorem memRead_error {a : Word} {s : State} {f : Fault} :
    memRead a s = .error f ↔ a = 0xFE00#16 ∧ inChar s = .error f := by
  by_cases ha : a = 0xFE00#16
  · subst ha
    rcases h : inChar s with g | ⟨c, s1⟩
    · simp [memRead_kbsr_of_error h]
    · simp [memRead_kbsr_of_ok h]
  · simp [memRead_of_ne ha, ha]

/-- What a `MemRead` can change: the keyboard cells and the input, and these only at 0xFE00 (R50). -/
theorem memRead_frame {a v : Word} {s t : State} (h : memRead a s = .ok (v, t)) :
    t = { s with mem := t.mem, input := t.input, inputPos := t.inputPos } ∧
      ∀ q, (a = 0xFE00#16 → q ≠ 0xFE00#16 ∧ q ≠ 0xFE02#16) → t.cell q = s.cell q := by
  rcases memRead_ok.mp h with ⟨_, _, rfl⟩ | ⟨rfl, _, c, s1, hc, rfl⟩
  · exact ⟨rfl, fun _ _ => rfl⟩
  · have hf := inChar_frame hc
    refine ⟨?_, fun q hq => ?_⟩
    · rw [hf]; rfl
    · obtain ⟨h1, h2⟩ := hq rfl
      rw [keyboardLatched_cell, if_neg h1, if_neg h2, hf]; rfl

/-! ### Every memory operation keeps the canonical form -/

theorem inChar_mem {s s1 : State} {c : Word} (h : inChar s = .ok (c, s1)) : s1.mem = s.mem := by
  rw [inChar_frame h]

theorem keyboardLatched_wf {c : Word} {s : State} (h : s.mem.wf) : (keyboardLatched c s).mem.wf :=
  memWrite_wf (memWrite_wf h 0xFE02#16 c) 0xFE00#16 0x8000#16

theorem memRead_wf {a v : Word} {s t : State} (hs : s.mem.wf) (h : memRead a s = .ok (v, t)) : t.mem.wf := by
  rcases memRead_ok.mp h with ⟨_, _, rfl⟩ | ⟨_, _, c, s1, hc, rfl⟩
  · exact hs
  · exact keyboardLatched_wf (by rw [inChar_mem hc]; exact hs)

theorem keyboardStatusRead_wf {s t : State} (hs : s.mem.wf) (h : keyboardStatusRead s = .ok t) : t.mem.wf :=
  memRead_wf (a := 0xFE00#16) (v := t.cell 0xFE00#16) hs (by simp [memRead, Config.kbsrAddr, h])

/-- Placing an image keeps the canonical form. -/
theorem placeWords_wf {m : Memory} (h : m.wf) (a : Nat) (ws : List Word) : (placeWords a ws m).wf := by
  induction ws generalizing a m with
  | nil => exact h
  | cons w ws ih =>
    unfold placeWords
    split
    · exact ih (Memory.wf_write h ‹_› w) _
    · exact h

/-! ### Fetch -/

theorem fetch_ok {s t : State} {w : Word} :
    fetch s = .ok (w, t) ↔ ∃ s1, memRead s.pc s = .ok (w, s1) ∧ t = setPc (s.pc + 1#16) s1 := by
  unfold fetch
  rcases memRead s.pc s with f | ⟨v, s1⟩
  · simp
  · simp only [Except.ok.injEq, Prod.mk.injEq]
    constructor
    · rintro ⟨rfl, rfl⟩; exact ⟨s1, ⟨rfl, rfl⟩, rfl⟩
    · rintro ⟨_, ⟨rfl, rfl⟩, rfl⟩; exact ⟨rfl, rfl⟩

theorem fetch_error {s : State} {f : Fault} : fetch s = .error f ↔ memRead s.pc s = .error f := by
  unfold fetch
  rcases memRead s.pc s with g | ⟨v, s1⟩ <;> simp

theorem fetch_wf {s t : State} {w : Word} (hs : s.mem.wf) (h : fetch s = .ok (w, t)) : t.mem.wf := by
  obtain ⟨s1, h1, rfl⟩ := fetch_ok.mp h
  have h2 := memRead_wf hs h1
  exact h2

/-! ### Strings -/

/-- The length of a string is the number of nonzero cells before the first zero one. -/
theorem stringLength_some {m : Memory} {fuel n : Nat} {a : Word} :
    stringLength m fuel a = some n ↔
      n < fuel ∧ (∀ k, k < n → m.read (a + BitVec.ofNat 16 k).toNat ≠ 0x0000#16) ∧
        m.read (a + BitVec.ofNat 16 n).toNat = 0x0000#16 := by
  induction fuel generalizing a n with
  | zero => simp [stringLength]
  | succ fuel ih =>
    have hstep (k : Nat) : a + BitVec.ofNat 16 (k + 1) = a + 1#16 + BitVec.ofNat 16 k := by
      rw [BitVec.ofNat_add, BitVec.add_assoc, BitVec.add_comm (1#16)]
    unfold stringLength
    by_cases hz : m.read a.toNat = 0x0000#16
    · simp only [hz, ↓reduceIte, Option.some.injEq]
      constructor
      · rintro rfl; exact ⟨Nat.succ_pos _, fun k hk => absurd hk (Nat.not_lt_zero k), by simpa using hz⟩
      · rintro ⟨_, hlt, _⟩
        rcases n with _ | n
        · rfl
        · exact absurd (by simpa using hz) (hlt 0 (Nat.succ_pos n))
    · simp only [hz, ↓reduceIte, Option.map_eq_some_iff]
      constructor
      · rintro ⟨k, hk, rfl⟩
        obtain ⟨h1, h2, h3⟩ := ih.mp hk
        refine ⟨Nat.succ_lt_succ h1, fun j hj => ?_, by rw [hstep]; exact h3⟩
        rcases j with _ | j
        · simpa using hz
        · rw [hstep]; exact h2 j (Nat.lt_of_succ_lt_succ hj)
      · rintro ⟨h1, h2, h3⟩
        rcases n with _ | n
        · exact absurd (by simpa using h3) hz
        · refine ⟨n, ih.mpr ⟨Nat.lt_of_succ_lt_succ h1, fun k hk => ?_, by rw [← hstep]; exact h3⟩, rfl⟩
          rw [← hstep]; exact h2 (k + 1) (Nat.succ_lt_succ hk)

/-- The bytes of `n` cells are those of each cell in turn. -/
theorem stringBytes_eq (emit : Word → List Byte) (m : Memory) (n : Nat) (a : Word) :
    stringBytes emit m n a = (List.range n).flatMap (fun k => emit (m.read (a + BitVec.ofNat 16 k).toNat)) := by
  induction n generalizing a with
  | zero => rfl
  | succ n ih =>
    rw [stringBytes, ih, List.range_succ_eq_map, List.flatMap_cons, List.flatMap_map]
    congr 1
    · simp
    · congr 1; funext k
      rw [Nat.succ_eq_add_one, BitVec.ofNat_add, BitVec.add_assoc, BitVec.add_comm (1#16)]

theorem writeString_next {emit : Word → List Byte} {s t : State} :
    writeString emit s = .next t ↔
      ∃ n, stringLength s.mem Config.memCells (s.reg 0) = some n ∧
        t = flush (outBytes (stringBytes emit s.mem n (s.reg 0)) s) := by
  unfold writeString
  rcases stringLength s.mem Config.memCells (s.reg 0) with _ | n <;> simp [eq_comm]

theorem writeString_fault {emit : Word → List Byte} {s : State} {f : Fault} :
    writeString emit s = .fault f ↔
      f = .endlessString ∧ stringLength s.mem Config.memCells (s.reg 0) = none := by
  unfold writeString
  rcases stringLength s.mem Config.memCells (s.reg 0) with _ | n <;> simp [eq_comm]

/-! ### One step -/

/-- A step that answers a next state was taken in RUNNING, and ran what it fetched. -/
theorem step_next {s t : State} :
    step s = .next t ↔
      s.run = .running ∧ ∃ w s1, fetch s = .ok (w, s1) ∧
        ((∃ i, decode w = .ok i ∧ exec i s1 = .next t) ∨
          (decode w = .error .badOpcode ∧ t = raiseFault .badOpcode s1)) := by
  unfold step
  rcases s.run with _ | _ | r
  · simp only [afterAccess_next, true_and]
    refine exists_congr fun w => exists_congr fun s1 => and_congr_right fun _ => ?_
    rcases decode w with ⟨⟨⟩⟩ | i <;> simp [eq_comm]
  · simp
  · simp

end Sys2Proof.Machine
end

