-- ==== Sys2Proof/Laws/PerInstr.lean ====
section
/-! SUPPORT. The family MatchesTableRow: the encoding of every instruction lies in its row of spec/opcode_table.json, by the row's
"match" and "mask". The two columns below are copied from the table, not computed from the encoder. -/

namespace Sys2Proof.Laws

/-- The "mask" of an instruction's row. -/
def rowMask : Instr → Word
  | .addReg _ _ _ => 0xF020#16
  | .addImm _ _ _ => 0xF020#16
  | .andReg _ _ _ => 0xF020#16
  | .andImm _ _ _ => 0xF020#16
  | .not _ _ => 0xF000#16
  | .br _ _ => 0xF000#16
  | .ret => 0xF1C0#16
  | .jmp _ => 0xF000#16
  | .jsr _ => 0xF800#16
  | .jsrr _ => 0xF800#16
  | .ld _ _ => 0xF000#16
  | .ldi _ _ => 0xF000#16
  | .ldr _ _ _ => 0xF000#16
  | .lea _ _ => 0xF000#16
  | .st _ _ => 0xF000#16
  | .sti _ _ => 0xF000#16
  | .str _ _ _ => 0xF000#16
  | .trapGetc => 0xF0FF#16
  | .trapOut => 0xF0FF#16
  | .trapPuts => 0xF0FF#16
  | .trapIn => 0xF0FF#16
  | .trapPutsp => 0xF0FF#16
  | .trapHalt => 0xF0FF#16
  | .trapUnrecognized _ => 0xF000#16
  | .rti => 0xF000#16
  | .res => 0xF000#16

/-- The "match" of an instruction's row. -/
def rowMatch : Instr → Word
  | .addReg _ _ _ => 0x1000#16
  | .addImm _ _ _ => 0x1020#16
  | .andReg _ _ _ => 0x5000#16
  | .andImm _ _ _ => 0x5020#16
  | .not _ _ => 0x9000#16
  | .br _ _ => 0x0000#16
  | .ret => 0xC1C0#16
  | .jmp _ => 0xC000#16
  | .jsr _ => 0x4800#16
  | .jsrr _ => 0x4000#16
  | .ld _ _ => 0x2000#16
  | .ldi _ _ => 0xA000#16
  | .ldr _ _ _ => 0x6000#16
  | .lea _ _ => 0xE000#16
  | .st _ _ => 0x3000#16
  | .sti _ _ => 0xB000#16
  | .str _ _ _ => 0x7000#16
  | .trapGetc => 0xF020#16
  | .trapOut => 0xF021#16
  | .trapPuts => 0xF022#16
  | .trapIn => 0xF023#16
  | .trapPutsp => 0xF024#16
  | .trapHalt => 0xF025#16
  | .trapUnrecognized _ => 0xF000#16
  | .rti => 0x8000#16
  | .res => 0xD000#16

namespace MatchesTableRow

/-- The encoded word matches the instruction's table row. -/
def Statement (i : Instr) : Prop := encode i &&& rowMask i = rowMatch i

/-- A masked word is read off bit by bit. -/
theorem of_bits {w mask pat : Word} (h : ∀ k : Fin 16, (w.getLsbD k && mask.getLsbD k) = pat.getLsbD k) :
    w &&& mask = pat := by
  apply BitVec.eq_of_getLsbD_eq
  intro k hk
  simpa using h ⟨k, hk⟩

theorem addReg (dr : Reg) (sr1 : Reg) (sr2 : Reg) : Statement (.addReg dr sr1 sr2) := by
  refine of_bits fun k => ?_
  simp only [encode, rowMask, rowMatch, BitVec.getLsbD_append]
  fin_cases k <;> simp

theorem addImm (dr : Reg) (sr1 : Reg) (imm5 : BitVec 5) : Statement (.addImm dr sr1 imm5) := by
  refine of_bits fun k => ?_
  simp only [encode, rowMask, rowMatch, BitVec.getLsbD_append]
  fin_cases k <;> simp

theorem andReg (dr : Reg) (sr1 : Reg) (sr2 : Reg) : Statement (.andReg dr sr1 sr2) := by
  refine of_bits fun k => ?_
  simp only [encode, rowMask, rowMatch, BitVec.getLsbD_append]
  fin_cases k <;> simp

theorem andImm (dr : Reg) (sr1 : Reg) (imm5 : BitVec 5) : Statement (.andImm dr sr1 imm5) := by
  refine of_bits fun k => ?_
  simp only [encode, rowMask, rowMatch, BitVec.getLsbD_append]
  fin_cases k <;> simp

theorem not (dr : Reg) (sr : Reg) : Statement (.not dr sr) := by
  refine of_bits fun k => ?_
  simp only [encode, rowMask, rowMatch, BitVec.getLsbD_append]
  fin_cases k <;> simp

theorem br (nzp : BitVec 3) (offset9 : BitVec 9) : Statement (.br nzp offset9) := by
  refine of_bits fun k => ?_
  simp only [encode, rowMask, rowMatch, BitVec.getLsbD_append]
  fin_cases k <;> simp

theorem ret : Statement .ret := by unfold Statement; decide

theorem jmp (base : Reg) : Statement (.jmp base) := by
  refine of_bits fun k => ?_
  simp only [encode, rowMask, rowMatch, BitVec.getLsbD_append]
  fin_cases k <;> simp

theorem jsr (offset11 : BitVec 11) : Statement (.jsr offset11) := by
  refine of_bits fun k => ?_
  simp only [encode, rowMask, rowMatch, BitVec.getLsbD_append]
  fin_cases k <;> simp

theorem jsrr (base : Reg) : Statement (.jsrr base) := by
  refine of_bits fun k => ?_
  simp only [encode, rowMask, rowMatch, BitVec.getLsbD_append]
  fin_cases k <;> simp

theorem ld (dr : Reg) (offset9 : BitVec 9) : Statement (.ld dr offset9) := by
  refine of_bits fun k => ?_
  simp only [encode, rowMask, rowMatch, BitVec.getLsbD_append]
  fin_cases k <;> simp

theorem ldi (dr : Reg) (offset9 : BitVec 9) : Statement (.ldi dr offset9) := by
  refine of_bits fun k => ?_
  simp only [encode, rowMask, rowMatch, BitVec.getLsbD_append]
  fin_cases k <;> simp

theorem ldr (dr : Reg) (base : Reg) (offset6 : BitVec 6) : Statement (.ldr dr base offset6) := by
  refine of_bits fun k => ?_
  simp only [encode, rowMask, rowMatch, BitVec.getLsbD_append]
  fin_cases k <;> simp

theorem lea (dr : Reg) (offset9 : BitVec 9) : Statement (.lea dr offset9) := by
  refine of_bits fun k => ?_
  simp only [encode, rowMask, rowMatch, BitVec.getLsbD_append]
  fin_cases k <;> simp

theorem st (sr : Reg) (offset9 : BitVec 9) : Statement (.st sr offset9) := by
  refine of_bits fun k => ?_
  simp only [encode, rowMask, rowMatch, BitVec.getLsbD_append]
  fin_cases k <;> simp

theorem sti (sr : Reg) (offset9 : BitVec 9) : Statement (.sti sr offset9) := by
  refine of_bits fun k => ?_
  simp only [encode, rowMask, rowMatch, BitVec.getLsbD_append]
  fin_cases k <;> simp

theorem str (sr : Reg) (base : Reg) (offset6 : BitVec 6) : Statement (.str sr base offset6) := by
  refine of_bits fun k => ?_
  simp only [encode, rowMask, rowMatch, BitVec.getLsbD_append]
  fin_cases k <;> simp

theorem trapGetc : Statement .trapGetc := by unfold Statement; decide

theorem trapOut : Statement .trapOut := by unfold Statement; decide

theorem trapPuts : Statement .trapPuts := by unfold Statement; decide

theorem trapIn : Statement .trapIn := by unfold Statement; decide

theorem trapPutsp : Statement .trapPutsp := by unfold Statement; decide

theorem trapHalt : Statement .trapHalt := by unfold Statement; decide

theorem trapUnrecognized (trapvect8 : BitVec 8) : Statement (.trapUnrecognized trapvect8) := by
  refine of_bits fun k => ?_
  simp only [encode, rowMask, rowMatch, BitVec.getLsbD_append]
  fin_cases k <;> simp

theorem rti : Statement .rti := by unfold Statement; decide

theorem res : Statement .res := by unfold Statement; decide

end MatchesTableRow

end Sys2Proof.Laws
end

