-- ==== Sys2Proof/Tests/Slice0.lean ====
section
/-! SUPPORT. The model's own tests. Expected results are the spec's vectors V1 to V68 and examples S1 to S10
(spec/95_test_vectors.md) or follow by hand from the rule named; none comes from running the model. The second half shows for
every statement that has hypotheses a concrete state that meets them. -/

namespace Sys2Proof.Tests

open Sys2Proof Sys2Proof.Machine

/-! ## WellFormed: an ill-formed term for each check is refused -/

/-- JMP through R7 is RET (R68). -/
theorem test_wellFormed_refuses_jmp_r7 : (Instr.jmp 7).wellFormed = false := by decide

/-- A service selector is its service row (R68). -/
theorem test_wellFormed_refuses_service_selectors :
    (Instr.trapUnrecognized 0x20#8).wellFormed = false ∧ (Instr.trapUnrecognized 0x25#8).wellFormed = false := by decide

theorem test_wellFormed_accepts_the_neighbours :
    (Instr.jmp 6).wellFormed = true ∧ (Instr.trapUnrecognized 0x1F#8).wellFormed = true ∧
      (Instr.trapUnrecognized 0x26#8).wellFormed = true := by decide

/-! ## Decode: words written out bit by bit from the layouts of R63 -/

theorem test_decode_add_register : decode 0b0001_000_001_0_00_010#16 = .ok (.addReg 0 1 2) := by decide

theorem test_decode_add_register_ignored_bits : decode 0b0001_111_110_0_11_101#16 = .ok (.addReg 7 6 5) := by decide

theorem test_decode_add_immediate : decode 0b0001_011_010_1_10001#16 = .ok (.addImm 3 2 0b10001#5) := by decide

theorem test_decode_and_register : decode 0b0101_100_001_0_00_110#16 = .ok (.andReg 4 1 6) := by decide

theorem test_decode_and_immediate : decode 0b0101_110_011_1_01010#16 = .ok (.andImm 6 3 0b01010#5) := by decide

theorem test_decode_not : decode 0b1001_101_010_1_11111#16 = .ok (.not 5 2) := by decide

theorem test_decode_not_ignored_bits : decode 0b1001_101_010_0_10010#16 = .ok (.not 5 2) := by decide

theorem test_decode_br : decode 0b0000_100_100000001#16 = .ok (.br 0b100#3 0b100000001#9) := by decide

theorem test_decode_jmp : decode 0b1100_111_110_0_11001#16 = .ok (.jmp 6) := by decide

theorem test_decode_ret : decode 0b1100_000_111_0_00000#16 = .ok .ret := by decide

theorem test_decode_jsr : decode 0b0100_1_10000000011#16 = .ok (.jsr 0b10000000011#11) := by decide

theorem test_decode_jsrr : decode 0b0100_0_11_101_0_00000#16 = .ok (.jsrr 5) := by decide

theorem test_decode_ld : decode 0b0010_011_000000101#16 = .ok (.ld 3 0b101#9) := by decide

theorem test_decode_ldi : decode 0b1010_011_100000101#16 = .ok (.ldi 3 0b100000101#9) := by decide

theorem test_decode_ldr : decode 0b0110_001_110_100001#16 = .ok (.ldr 1 6 0b100001#6) := by decide

theorem test_decode_lea : decode 0b1110_111_111111110#16 = .ok (.lea 7 0b111111110#9) := by decide

theorem test_decode_st : decode 0b0011_010_000010000#16 = .ok (.st 2 0b10000#9) := by decide

theorem test_decode_sti : decode 0b1011_110_000000110#16 = .ok (.sti 6 0b110#9) := by decide

theorem test_decode_str : decode 0b0111_001_110_000001#16 = .ok (.str 1 6 0b000001#6) := by decide

theorem test_decode_trap_services :
    decode 0b1111_0000_00100000#16 = .ok .trapGetc ∧ decode 0b1111_0000_00100001#16 = .ok .trapOut ∧
      decode 0b1111_0000_00100010#16 = .ok .trapPuts ∧ decode 0b1111_0000_00100011#16 = .ok .trapIn ∧
      decode 0b1111_0000_00100100#16 = .ok .trapPutsp ∧ decode 0b1111_1111_00100101#16 = .ok .trapHalt := by decide

theorem test_decode_trap_unrecognized :
    decode 0b1111_0000_00011111#16 = .ok (.trapUnrecognized 0x1F#8) ∧
      decode 0b1111_1010_10100101#16 = .ok (.trapUnrecognized 0xA5#8) := by decide

theorem test_decode_rti : decode 0b1000_000_000_0_00001#16 = .ok .rti := by decide

theorem test_decode_res : decode 0b1101_000_100_1_00011#16 = .ok .res := by decide

/-- R63's bracketed values: what an assembler writes. -/
theorem test_encode_canonical_words :
    encode (.not 1 1) = 0x927F#16 ∧ encode .ret = 0xC1C0#16 ∧ encode (.jsrr 3) = 0x40C0#16 ∧
      encode (.addReg 0 1 2) = 0x1042#16 ∧ encode (.trapUnrecognized 0x26#8) = 0xF026#16 := by decide

/-- One 16-bit cell is the whole instruction (R60). -/
theorem test_decodeTableWord :
    decodeTableWord 16 0x1042 = some (.addReg 0 1 2) ∧ decodeTableWord 16 0x11042 = none ∧
      decodeTableWord 32 0x1042 = none := by decide

/-! ## Operands and flags -/

/-- S1, S2, S3. -/
theorem test_sext :
    sext 0b11111#5 = 0xFFFF#16 ∧ sext 0b01111#5 = 0x000F#16 ∧ sext 0b100000#6 = 0xFFE0#16 ∧
      sext 0x100#9 = 0xFF00#16 ∧ sext 0x0FF#9 = 0x00FF#16 ∧ sext 0x400#11 = 0xFC00#16 ∧ sext 0x3FF#11 = 0x03FF#16 := by
  decide

/-- S4. -/
theorem test_flag_boundaries :
    condOf 0x0000#16 = 0b010#3 ∧ condOf 0x8000#16 = 0b100#3 ∧ condOf 0x0001#16 = 0b001#3 ∧
      condOf 0x7FFF#16 = 0b001#3 ∧ condOf 0xFFFF#16 = 0b100#3 := by decide

/-! ## One step of each instruction -/

/-- Reset, with `pc` moved and the given cells stored. -/
def stateAt (pc : Word) (cells : List (Word × Word)) : State :=
  cells.foldl (fun s cell => memWrite cell.1 cell.2 s) { State.reset with pc := pc }

/-- What a step that answers a next state leaves, seen through `f`. -/
def afterStep {α : Type} (s : State) (f : State → α) : Option α :=
  match step s with
  | .next t => some (f t)
  | .fault _ => none
  | .refused _ => none

/-- The fault a step answers. -/
def stepFault (s : State) : Option Fault :=
  match step s with
  | .next _ => none
  | .fault f => some f
  | .refused _ => none

/-- V1 -/
theorem test_add_register_signed_overflow_wraps :
    afterStep (setReg 1 0x7FFF#16 (setReg 2 0x0001#16 (stateAt 0x3000#16 [(0x3000#16, 0x1042#16)])))
      (fun t => (t.reg 0, t.cond, t.pc)) = some (0x8000#16, 0b100#3, 0x3001#16) := by decide

/-- V3 -/
theorem test_add_register_all_three_equal :
    afterStep (setReg 1 0x4000#16 (stateAt 0x3000#16 [(0x3000#16, 0x1241#16)])) (fun t => (t.reg 1, t.cond)) =
      some (0x8000#16, 0b100#3) := by decide

/-- V4 -/
theorem test_add_immediate_minus_16 :
    afterStep (setReg 1 0x0010#16 (stateAt 0x3000#16 [(0x3000#16, 0x1070#16)])) (fun t => (t.reg 0, t.cond)) =
      some (0x0000#16, 0b010#3) := by decide

/-- V6 -/
theorem test_add_immediate_15 :
    afterStep (setReg 1 0x7FF0#16 (stateAt 0x3000#16 [(0x3000#16, 0x126F#16)])) (fun t => (t.reg 1, t.cond)) =
      some (0x7FFF#16, 0b001#3) := by decide

/-- V10 -/
theorem test_and_register :
    afterStep (setReg 1 0x00F0#16 (setReg 2 0x0FF0#16 (stateAt 0x3000#16 [(0x3000#16, 0x5642#16)])))
      (fun t => (t.reg 3, t.cond)) = some (0x00F0#16, 0b001#3) := by decide

/-- V11 -/
theorem test_and_register_zero :
    afterStep (setReg 1 0x00F0#16 (setReg 2 0x0F0F#16 (stateAt 0x3000#16 [(0x3000#16, 0x5642#16)])))
      (fun t => (t.reg 3, t.cond)) = some (0x0000#16, 0b010#3) := by decide

/-- V12 -/
theorem test_and_immediate_sign_extends :
    afterStep (setReg 1 0x8FFF#16 (stateAt 0x3000#16 [(0x3000#16, 0x5070#16)])) (fun t => (t.reg 0, t.cond)) =
      some (0x8FF0#16, 0b100#3) := by decide

/-- V8 -/
theorem test_and_immediate_clears :
    afterStep (setReg 0 0x1234#16 (stateAt 0x3000#16 [(0x3000#16, 0x5020#16)])) (fun t => (t.reg 0, t.cond)) =
      some (0x0000#16, 0b010#3) := by decide

/-- V15 -/
theorem test_not :
    afterStep (setReg 1 0x8000#16 (stateAt 0x3000#16 [(0x3000#16, 0x907F#16)])) (fun t => (t.reg 0, t.cond)) =
      some (0x7FFF#16, 0b001#3) := by decide

/-- V16 -/
theorem test_not_ignored_bits :
    afterStep (setReg 0 0x00FF#16 (stateAt 0x3000#16 [(0x3000#16, 0x9000#16)])) (fun t => (t.reg 0, t.cond)) =
      some (0xFF00#16, 0b100#3) := by decide

/-- V23 -/
theorem test_br_taken_wraps :
    afterStep { stateAt 0xFFFF#16 [(0xFFFF#16, 0x03FF#16)] with cond := 0b001#3 } (fun t => t.pc) =
      some 0xFFFF#16 := by decide

/-- V19: no flag is active right after reset. -/
theorem test_br_not_taken_at_reset :
    afterStep (stateAt 0x3000#16 [(0x3000#16, 0x0E05#16)]) (fun t => t.pc) = some 0x3001#16 := by decide

/-- V27 -/
theorem test_jmp_ignored_bits_no_alignment :
    afterStep (setReg 6 0x1235#16 (stateAt 0x3000#16 [(0x3000#16, 0xCFBF#16)])) (fun t => t.pc) =
      some 0x1235#16 := by decide

/-- V26 -/
theorem test_ret :
    afterStep (setReg 7 0x3003#16 (stateAt 0x3000#16 [(0x3000#16, 0xC1C0#16)])) (fun t => (t.pc, t.reg 7)) =
      some (0x3003#16, 0x3003#16) := by decide

/-- V29 -/
theorem test_jsr_minus_1024 :
    afterStep (stateAt 0x3000#16 [(0x3000#16, 0x4C00#16)]) (fun t => (t.reg 7, t.pc, t.cond)) =
      some (0x3001#16, 0x2C01#16, 0b000#3) := by decide

/-- V30 -/
theorem test_jsrr :
    afterStep (setReg 3 0x5000#16 (stateAt 0x3000#16 [(0x3000#16, 0x40C0#16)])) (fun t => (t.reg 7, t.pc)) =
      some (0x3001#16, 0x5000#16) := by decide

/-- V31 -/
theorem test_jsrr_r7 :
    afterStep (setReg 7 0x5000#16 (stateAt 0x3000#16 [(0x3000#16, 0x41C0#16)])) (fun t => (t.reg 7, t.pc)) =
      some (0x3001#16, 0x3001#16) := by decide

/-- V33 -/
theorem test_ld :
    afterStep (stateAt 0x3000#16 [(0x3000#16, 0x2205#16), (0x3006#16, 0x8000#16)]) (fun t => (t.reg 1, t.cond)) =
      some (0x8000#16, 0b100#3) := by decide

/-- V35 -/
theorem test_ld_keyboard_status :
    afterStep { stateAt 0xFDFF#16 [(0xFDFF#16, 0x2000#16)] with input := [0x7A#8] }
      (fun t => (t.reg 0, t.cond, t.cell 0xFE00#16, t.cell 0xFE02#16, t.inputPos)) =
      some (0x8000#16, 0b100#3, 0x8000#16, 0x007A#16, 1) := by decide

/-- V36 -/
theorem test_ldi :
    afterStep (stateAt 0x3000#16 [(0x3000#16, 0xA407#16), (0x3008#16, 0x300A#16), (0x300A#16, 0x0007#16)])
      (fun t => (t.reg 2, t.cond)) = some (0x0007#16, 0b001#3) := by decide

/-- V37 -/
theorem test_ldi_keyboard_status :
    afterStep { stateAt 0x3000#16 [(0x3000#16, 0xA004#16), (0x3005#16, 0xFE00#16)] with input := [0x41#8] }
      (fun t => (t.reg 0, t.cond, t.cell 0xFE00#16, t.cell 0xFE02#16)) =
      some (0x8000#16, 0b100#3, 0x8000#16, 0x0041#16) := by decide

/-- V38 -/
theorem test_ldr_wraps_below_zero :
    afterStep (stateAt 0x3000#16 [(0x3000#16, 0x603F#16), (0xFFFF#16, 0x1234#16)]) (fun t => (t.reg 0, t.cond)) =
      some (0x1234#16, 0b001#3) := by decide

/-- V39 -/
theorem test_ldr_wraps_past_the_top :
    afterStep (setReg 0 0xFFFF#16 (stateAt 0x3000#16 [(0x3000#16, 0x6201#16), (0x0000#16, 0xABCD#16)]))
      (fun t => (t.reg 1, t.cond)) = some (0xABCD#16, 0b100#3) := by decide

/-- V42 -/
theorem test_lea_sets_flags :
    afterStep (stateAt 0x7FFF#16 [(0x7FFF#16, 0xE000#16)]) (fun t => (t.reg 0, t.cond)) =
      some (0x8000#16, 0b100#3) := by decide

/-- V43 -/
theorem test_lea_at_the_top :
    afterStep (stateAt 0xFFFF#16 [(0xFFFF#16, 0xE000#16)]) (fun t => (t.reg 0, t.cond, t.pc)) =
      some (0x0000#16, 0b010#3, 0x0000#16) := by decide

/-- V44 -/
theorem test_st :
    afterStep (setReg 0 0x000F#16 (stateAt 0x3000#16 [(0x3000#16, 0x3002#16)]))
      (fun t => (t.cell 0x3003#16, t.cond)) = some (0x000F#16, 0b000#3) := by decide

/-- V48 -/
theorem test_st_overwrites_itself :
    afterStep (setReg 0 0x1234#16 (stateAt 0x3000#16 [(0x3000#16, 0x31FF#16)])) (fun t => (t.cell 0x3000#16, t.pc)) =
      some (0x1234#16, 0x3001#16) := by decide

/-- V45 -/
theorem test_sti :
    afterStep (setReg 1 0xFFF9#16 (stateAt 0x3000#16 [(0x3000#16, 0xB206#16), (0x3007#16, 0x300A#16)]))
      (fun t => t.cell 0x300A#16) = some 0xFFF9#16 := by decide

/-- R105, R43: with the pointer cell at 0xFE00 the pointer read is 0x8000. -/
theorem test_sti_pointer_at_keyboard_status :
    afterStep { setReg 1 0x0BAD#16 (stateAt 0xFDFF#16 [(0xFDFF#16, 0xB200#16)]) with input := [0x41#8] }
      (fun t => (t.cell 0x8000#16, t.cell 0xFE02#16, t.input)) = some (0x0BAD#16, 0x0041#16, []) := by decide

/-- V46 -/
theorem test_str :
    afterStep (setReg 1 0xFFF9#16 (setReg 6 0x300A#16 (stateAt 0x3000#16 [(0x3000#16, 0x7381#16)])))
      (fun t => t.cell 0x300B#16) = some 0xFFF9#16 := by decide

/-- V47 -/
theorem test_str_source_is_base :
    afterStep (setReg 6 0x4020#16 (stateAt 0x3000#16 [(0x3000#16, 0x7DA0#16)])) (fun t => t.cell 0x4000#16) =
      some 0x4020#16 := by decide

/-- V49 -/
theorem test_getc :
    afterStep { setReg 0 0xFFFF#16 (stateAt 0x3000#16 [(0x3000#16, 0xF020#16)]) with input := [0x41#8] }
      (fun t => (t.reg 0, t.cond, t.output, t.reg 7)) = some (0x0041#16, 0b000#3, [], 0x0000#16) := by decide

/-- V62 -/
theorem test_getc_blocks_at_end_of_input :
    stepFault (endInput (stateAt 0x3000#16 [(0x3000#16, 0xF020#16)])) = some .inputExhausted := by decide

/-- V50 -/
theorem test_out :
    afterStep (setReg 0 0x1241#16 (stateAt 0x3000#16 [(0x3000#16, 0xF021#16)])) (fun t => (t.output, t.reg 0)) =
      some ([0x41#8], 0x1241#16) := by decide

/-- V52 -/
theorem test_puts_ignores_high_byte :
    afterStep (setReg 0 0x4000#16 (stateAt 0x3000#16 [(0x3000#16, 0xF022#16), (0x4000#16, 0x4148#16)]))
      (fun t => t.output) = some [0x48#8] := by decide

/-- V54 -/
theorem test_puts_wraps :
    afterStep (setReg 0 0xFFFF#16
      (stateAt 0x3000#16 [(0x3000#16, 0xF022#16), (0xFFFF#16, 0x0041#16), (0x0000#16, 0x0042#16)]))
      (fun t => (t.output, t.flushed)) = some ([0x41#8, 0x42#8], 2) := by decide

/-- V55 -/
theorem test_in_echoes :
    afterStep { stateAt 0x3000#16 [(0x3000#16, 0xF023#16)] with input := [0x71#8] }
      (fun t => (t.reg 0, t.output, t.cond)) = some (0x0071#16, [0x71#8], 0b000#3) := by decide

/-- V64 -/
theorem test_in_sentinel :
    afterStep { stateAt 0x3000#16 [(0x3000#16, 0xF023#16)] with inputEnded := true, eofPolicy := .sentinel }
      (fun t => (t.reg 0, t.output)) = some (0xFFFF#16, [0xFF#8]) := by decide

/-- V56 -/
theorem test_putsp :
    afterStep (setReg 0 0x4000#16
      (stateAt 0x3000#16 [(0x3000#16, 0xF024#16), (0x4000#16, 0x4241#16), (0x4001#16, 0x0043#16)]))
      (fun t => t.output) = some [0x41#8, 0x42#8, 0x43#8] := by decide

/-- V57 -/
theorem test_putsp_low_byte_always :
    afterStep (setReg 0 0x4000#16 (stateAt 0x3000#16 [(0x3000#16, 0xF024#16), (0x4000#16, 0x4100#16)]))
      (fun t => t.output) = some [0x00#8, 0x41#8] := by decide

/-- S7, P1: an image with origin 0x3000 and the one word 0xF025. -/
theorem test_halt_image :
    (match loadImage [0x30#8, 0x00#8, 0xF0#8, 0x25#8] with
      | .ok s => afterStep s (fun t => (t.run, t.pc, t.regs, t.cond, t.output))
      | .error _ => none) =
      some (.halted, 0x3001#16, Vector.replicate 8 0x0000#16, 0b000#3, []) := by decide

/-- V60 -/
theorem test_unrecognized_selector :
    afterStep (stateAt 0x3000#16 [(0x3000#16, 0xF026#16)]) (fun t => (t.run, t.pc)) =
      some (.faulted (.badTrap 0x26#8), 0x3001#16) := by decide

/-- V61 -/
theorem test_unrecognized_selector_zero :
    afterStep (stateAt 0x3000#16 [(0x3000#16, 0xF000#16)]) (fun t => t.run) = some (.faulted (.badTrap 0x00#8)) := by
  decide

/-- V66 -/
theorem test_rti :
    afterStep (stateAt 0x3000#16 [(0x3000#16, 0x8000#16)]) (fun t => (t.run, t.pc, t.regs)) =
      some (.faulted (.unusedOpcode .rti), 0x3001#16, Vector.replicate 8 0x0000#16) := by decide

/-- V68 -/
theorem test_fetch_at_keyboard_status :
    afterStep { stateAt 0xFE00#16 [] with input := [0x78#8] } (fun t => (t.run, t.pc, t.cell 0xFE02#16)) =
      some (.faulted (.unusedOpcode .rti), 0xFE01#16, 0x0078#16) := by decide

/-- V67 -/
theorem test_res :
    afterStep (stateAt 0x3000#16 [(0x3000#16, 0xD123#16)]) (fun t => (t.run, t.pc)) =
      some (.faulted (.unusedOpcode .res), 0x3001#16) := by decide

/-! ## What the host asks of a placed instruction (log 19) -/

theorem test_withFetchWord_runs_next :
    afterStep (State.reset.withFetchWord 16 0xF025) (fun t => t.run) = some .halted ∧
      afterStep (State.withFetchWord { State.reset with pc := 0xFE00#16, run := .halted } 16 0xE000)
        (fun t => t.reg 0) = some 0x3001#16 := by decide

/-- R170: memory at reset is in canonical form with nothing listed. -/
theorem test_reset_memory : State.reset.mem = [] ∧ State.reset.mem.wf := by decide

/-! ## Witnesses: concrete states that meet the hypotheses of each statement -/

/-- Every cell below `n` holds 1; the others are not listed. -/
def filledBelow (n : Nat) : Memory := (List.range n).map (fun a => (a, 0x0001#16))

theorem read_map_ones (l : List Nat) (a : Nat) :
    Memory.read (l.map (fun k => (k, 0x0001#16))) a = if a ∈ l then 0x0001#16 else 0x0000#16 := by
  induction l with
  | nil => rfl
  | cons k l ih =>
    rw [List.map_cons, Memory.read_cons, ih]
    by_cases h : k = a
    · simp [h]
    · simp [h, Ne.symm h]

theorem filledBelow_read (n a : Nat) : (filledBelow n).read a = if a < n then 0x0001#16 else 0x0000#16 := by
  rw [filledBelow, read_map_ones]; simp

/-- A state whose memory has no zero cell, with an instruction word at `pc`. -/
def noZeroCell (w : Word) : State := memWrite 0x3000#16 w { State.reset with mem := filledBelow 65536 }

theorem noZeroCell_cell (w : Word) (h : w ≠ 0x0000#16) (a : Word) : (noZeroCell w).cell a ≠ 0x0000#16 := by
  rw [noZeroCell, memWrite_cell]
  split
  · exact h
  · simp [State.cell, filledBelow_read, a.isLt]

theorem noZeroCell_stringLength (w : Word) (h : w ≠ 0x0000#16) :
    stringLength (noZeroCell w).mem Config.memCells ((noZeroCell w).reg 0) = none := by
  rcases hn : stringLength (noZeroCell w).mem Config.memCells ((noZeroCell w).reg 0) with _ | n
  · rfl
  · exact absurd (stringLength_some.mp hn).2.2 (noZeroCell_cell w h _)

/-- States at an instruction: the fetch is done and `pc` is the incremented PC. -/
def withInput : State := { stateAt 0x3001#16 [(0x3001#16, 0xFE00#16)] with input := [0x41#8, 0x42#8], cond := 0b100#3 }

/-- The input has ended; the policy is Block. -/
def ended : State := endInput (stateAt 0x3001#16 [(0x3001#16, 0xFE00#16)])

/-- The input has ended; the policy is Sentinel. -/
def endedSentinel : State := { ended with eofPolicy := .sentinel }

/-! ### Launch and encoding -/

/-- The last cell: word 0 is loaded at 0xFFFF and word 1 would fall above it. -/
theorem witness_LaunchedImageLiesInZeroMemory_word :
    2 * 0 + 1 < [0xF0#8, 0x25#8, 0x12#8, 0x34#8].length ∧ (0xFF#8 ++ 0xFF#8).toNat + 0 < 65536 ∧
      ¬ (0xFF#8 ++ 0xFF#8).toNat + 1 < 65536 := by decide

theorem witness_LaunchedImageLiesInZeroMemory_zero :
    ∀ k, 2 * k + 1 < [0xF0#8, 0x25#8, 0x12#8, 0x34#8].length → (0x0000#16).toNat ≠ (0xFF#8 ++ 0xFF#8).toNat + k := by
  intro k _
  show 0 ≠ 65535 + k
  omega

theorem witness_DecodeEncodeRoundTrip :
    (Instr.jmp 6).wellFormed = true ∧ (Instr.trapUnrecognized 0x26#8).wellFormed = true ∧
      (Instr.ldr 7 0 0b100000#6).wellFormed = true := by decide

theorem witness_IgnoredBitsHaveNoEffect :
    decode 0xFF25#16 = .ok .trapHalt ∧ 0xFF25#16 &&& usedBits .trapHalt = 0xF025#16 &&& usedBits .trapHalt := by decide

/-! ### Flags, operate and control -/

theorem witness_SetccReportsSignZeroPositive :
    ((setReg 3 0x8000#16 State.reset).reg 3).getLsbD 15 = true ∧ State.reset.reg 3 = 0x0000#16 ∧
      ((setReg 3 0x7FFF#16 State.reset).reg 3).getLsbD 15 = false ∧ (setReg 3 0x7FFF#16 State.reset).reg 3 ≠ 0x0000#16 := by
  decide

theorem witness_AddImmediateWritesSumAndFlag :
    (setReg 2 0xFFF0#16 State.reset).reg 2 = BitVec.ofInt 16 (0b10000#5).toInt := by decide

theorem witness_BranchTakenExactlyWhenMaskMeetsFlags :
    0b100#3 &&& withInput.cond ≠ 0b000#3 ∧ 0b011#3 &&& withInput.cond = 0b000#3 ∧
      0b111#3 &&& State.reset.cond = 0b000#3 := by decide

/-! ### Loads and stores -/

/-- The addresses next to 0xFE00, and 0xFE00 itself with a character, at the end of input, and before the host has answered. -/
theorem witness_LoadReadsPcRelativeCell :
    (withInput.pc + BitVec.ofInt 16 (1#9).toInt ≠ 0xFE00#16 ∧
      { withInput with pc := 0xFE01#16 }.pc + BitVec.ofInt 16 (0#9).toInt ≠ 0xFE00#16) ∧
    (({ withInput with pc := 0xFE01#16 }.pc + BitVec.ofInt 16 (0x1FF#9).toInt = 0xFE00#16) ∧
      ∃ c s1, inChar { withInput with pc := 0xFE01#16 } = .ok (c, s1)) ∧
    (({ ended with pc := 0xFE00#16 }.pc + BitVec.ofInt 16 (0#9).toInt = 0xFE00#16) ∧
      ∃ f, inChar { ended with pc := 0xFE00#16 } = .error f) :=
  ⟨by decide, ⟨by decide, _, _, rfl⟩, by decide, _, rfl⟩

theorem witness_LoadIndirectReadsThroughPointer :
    (withInput.pc + BitVec.ofInt 16 (1#9).toInt ≠ 0xFE00#16 ∧
      withInput.cell (withInput.pc + BitVec.ofInt 16 (1#9).toInt) ≠ 0xFE00#16) ∧
    (withInput.pc + BitVec.ofInt 16 (0#9).toInt ≠ 0xFE00#16 ∧
      withInput.cell (withInput.pc + BitVec.ofInt 16 (0#9).toInt) = 0xFE00#16 ∧ ∃ c s1, inChar withInput = .ok (c, s1)) ∧
    (({ withInput with pc := 0xFE00#16 }.pc + BitVec.ofInt 16 (0#9).toInt = 0xFE00#16) ∧
      ∃ c s1, inChar { withInput with pc := 0xFE00#16 } = .ok (c, s1)) ∧
    (ended.cell (ended.pc + BitVec.ofInt 16 (0#9).toInt) = 0xFE00#16 ∧ ∃ f, inChar ended = .error f) :=
  ⟨by decide, ⟨by decide, by decide, _, _, rfl⟩, ⟨by decide, _, _, rfl⟩, by decide, _, rfl⟩

theorem witness_LoadBaseOffsetReadsCell :
    (withInput.reg 1 + BitVec.ofInt 16 (0b100000#6).toInt ≠ 0xFE00#16) ∧
    ((setReg 1 0xFE20#16 withInput).reg 1 + BitVec.ofInt 16 (0b100000#6).toInt = 0xFE00#16 ∧
      ∃ c s1, inChar (setReg 1 0xFE20#16 withInput) = .ok (c, s1)) ∧
    ((setReg 1 0xFE20#16 ended).reg 1 + BitVec.ofInt 16 (0b100000#6).toInt = 0xFE00#16 ∧
      ∃ f, inChar (setReg 1 0xFE20#16 ended) = .error f) :=
  ⟨by decide, ⟨by decide, _, _, rfl⟩, by decide, _, rfl⟩

theorem witness_StoreIndirectWritesThroughPointer :
    (withInput.pc + BitVec.ofInt 16 (0#9).toInt ≠ 0xFE00#16) ∧
    (({ withInput with pc := 0xFE00#16 }.pc + BitVec.ofInt 16 (0#9).toInt = 0xFE00#16) ∧
      ∃ c s1, inChar { withInput with pc := 0xFE00#16 } = .ok (c, s1)) ∧
    (({ ended with pc := 0xFE00#16 }.pc + BitVec.ofInt 16 (0#9).toInt = 0xFE00#16) ∧
      ∃ f, inChar { ended with pc := 0xFE00#16 } = .error f) :=
  ⟨by decide, ⟨by decide, _, _, rfl⟩, by decide, _, rfl⟩

/-- 0xFE02 is a plain cell of this statement. -/
theorem witness_StoredWordIsLoadedAndFetched :
    0xFE02#16 = { withInput with pc := 0xFE01#16 }.pc + BitVec.ofInt 16 (1#9).toInt ∧ 0xFE02#16 ≠ 0xFE00#16 := by decide

/-! ### Traps and reserved opcodes -/

theorem witness_TrapSelectsItsRoutine :
    (0x1F#8).toNat < 0x20 ∧ 0x25 < (0x26#8).toNat ∧ (∃ t, exec .trapGetc withInput = .next t) ∧
      ∃ t, exec (.trapUnrecognized 0x26#8) withInput = .next t := ⟨by decide, by decide, ⟨_, rfl⟩, _, rfl⟩

/-- A supplied character; no character yet, the sequence not ended (the reset state). -/
theorem witness_GetcReadsOneCharacterIntoR0 :
    withInput.input = 0x41#8 :: [0x42#8] ∧ State.reset.input = [] ∧ State.reset.inputEnded = false := by decide

theorem witness_InReadsEchoesAndStoresCharacter :
    withInput.input = 0x41#8 :: [0x42#8] ∧ State.reset.input = [] ∧ State.reset.inputEnded = false := by decide

/-- No cell before the zero cell; one cell before it, the address wrapping from 0xFFFF to 0x0000. -/
theorem witness_PutsWritesLowBytesUntilZeroCell :
    ((0 < 65536 ∧ ∀ k, k < 0 → State.reset.cell (State.reset.reg 0 + BitVec.ofNat 16 k) ≠ 0x0000#16) ∧
      State.reset.cell (State.reset.reg 0 + BitVec.ofNat 16 0) = 0x0000#16) ∧
    ((1 < 65536 ∧ ∀ k, k < 1 → (setReg 0 0xFFFF#16 (stateAt 0x3001#16 [(0xFFFF#16, 0x0041#16)])).cell
        ((setReg 0 0xFFFF#16 (stateAt 0x3001#16 [(0xFFFF#16, 0x0041#16)])).reg 0 + BitVec.ofNat 16 k) ≠ 0x0000#16) ∧
      (setReg 0 0xFFFF#16 (stateAt 0x3001#16 [(0xFFFF#16, 0x0041#16)])).cell
        ((setReg 0 0xFFFF#16 (stateAt 0x3001#16 [(0xFFFF#16, 0x0041#16)])).reg 0 + BitVec.ofNat 16 1) = 0x0000#16) :=
  ⟨⟨⟨by decide, fun _ h => absurd h (Nat.not_lt_zero _)⟩, by decide⟩, ⟨by decide, by decide⟩, by decide⟩

/-- The longest string: 65535 cells before the only zero cell. -/
theorem witness_PutsWritesLowBytesUntilZeroCell_longest :
    (65535 < 65536 ∧ ∀ k, k < 65535 → { State.reset with mem := filledBelow 65535 }.cell
      ({ State.reset with mem := filledBelow 65535 }.reg 0 + BitVec.ofNat 16 k) ≠ 0x0000#16) ∧
    { State.reset with mem := filledBelow 65535 }.cell
      ({ State.reset with mem := filledBelow 65535 }.reg 0 + BitVec.ofNat 16 65535) = 0x0000#16 := by
  have hr : { State.reset with mem := filledBelow 65535 }.reg 0 = 0x0000#16 := rfl
  simp only [hr, State.cell, filledBelow_read, BitVec.zero_add, BitVec.toNat_ofNat]
  refine ⟨⟨by decide, fun k hk => ?_⟩, by decide⟩
  rw [Nat.mod_eq_of_lt (by omega), if_pos hk]; decide

theorem witness_PutsWritesLowBytesUntilZeroCell_endless : ∀ a, (noZeroCell 0xF022#16).cell a ≠ 0x0000#16 :=
  noZeroCell_cell 0xF022#16 (by decide)

/-- "A" then a cell with both bytes: 0x0041, 0x4342, 0x0000. -/
theorem witness_PutspWritesPackedBytesUntilZeroCell :
    let s := setReg 0 0x4000#16 (stateAt 0x3001#16 [(0x4000#16, 0x0041#16), (0x4001#16, 0x4342#16)])
    (2 < 65536 ∧ ∀ k, k < 2 → s.cell (s.reg 0 + BitVec.ofNat 16 k) ≠ 0x0000#16) ∧
      s.cell (s.reg 0 + BitVec.ofNat 16 2) = 0x0000#16 ∧
      [0x41#8, 0x42#8, 0x43#8] = (List.range 2).flatMap (fun k =>
        let w := s.cell (s.reg 0 + BitVec.ofNat 16 k)
        if w.toNat < 256 then [w.setWidth 8] else [w.setWidth 8, (w >>> 8).setWidth 8]) := by decide

theorem witness_PutspWritesPackedBytesUntilZeroCell_endless : ∀ a, (noZeroCell 0xF024#16).cell a ≠ 0x0000#16 :=
  noZeroCell_cell 0xF024#16 (by decide)

theorem witness_ReservedOpcodesTakeUnusedOpcodeFault :
    (stateAt 0xFDFF#16 [(0xFDFF#16, 0x8FFF#16)]).run = .running ∧ (stateAt 0xFDFF#16 [(0xFDFF#16, 0x8FFF#16)]).pc ≠ 0xFE00#16 ∧
    (stateAt 0xFDFF#16 [(0xFDFF#16, 0x8FFF#16)]).cell 0xFDFF#16 = 0b1000#4 ++ 0xFFF#12 ∧
    (stateAt 0xFDFF#16 [(0xFDFF#16, 0xD123#16)]).cell 0xFDFF#16 = 0b1101#4 ++ 0x123#12 ∧
    { State.reset with run := .faulted (.unusedOpcode .res) }.run = .faulted (.unusedOpcode .res) := by decide

/-! ### Input and the keyboard cells -/

theorem witness_MemReadIsPlainAwayFromKeyboardStatus :
    0xFE01#16 ≠ 0xFE00#16 ∧ (∃ s1, keyboardStatusRead withInput = .ok s1) ∧ ∃ f, keyboardStatusRead ended = .error f :=
  ⟨by decide, ⟨_, rfl⟩, _, rfl⟩

theorem witness_KeyboardStatusReadLatchesCharacter :
    (∃ c s1, inChar withInput = .ok (c, s1)) ∧ withInput.input = 0x41#8 :: [0x42#8] := ⟨⟨_, _, rfl⟩, by decide⟩

theorem witness_InCharDeliversNextCharacterOnce :
    withInput.input = 0x41#8 :: [0x42#8] ∧ (State.reset.input = [] ∧ State.reset.inputEnded = false) ∧
      (ended.input = [] ∧ ended.inputEnded = true ∧ ended.eofPolicy = .block) ∧
      (endedSentinel.input = [] ∧ endedSentinel.inputEnded = true ∧ endedSentinel.eofPolicy = .sentinel) := by decide

theorem witness_EndOfInputBlocksOrReturnsSentinel :
    (ended.input = [] ∧ ended.inputEnded = true ∧ ended.eofPolicy = .block ∧
      ({ ended with pc := 0xFE00#16 }.run = .running ∧ { ended with pc := 0xFE00#16 }.pc = 0xFE00#16 ∧
        { ended with pc := 0xFE00#16 }.pc + BitVec.ofInt 16 (0#9).toInt = 0xFE00#16)) ∧
      (endedSentinel.input = [] ∧ endedSentinel.inputEnded = true ∧ endedSentinel.eofPolicy = .sentinel ∧
        { endedSentinel with pc := 0xFE00#16 }.run = .running ∧
        { endedSentinel with pc := 0xFE00#16 }.pc + BitVec.ofInt 16 (0#9).toInt = 0xFE00#16) := by decide

/-! ### Memory as data -/

/-- The two memories are written in opposite orders. -/
theorem witness_CanonicalMemoriesWithEqualCellsAreEqual :
    let m := (Memory.write [] 0x3000 0x1042#16).write 0x0000 0x0001#16
    let m' := (Memory.write [] 0x0000 0x0001#16).write 0x3000 0x1042#16
    m.wf ∧ m'.wf ∧ ∀ a : Word, m.read a.toNat = m'.read a.toNat :=
  ⟨by decide, by decide, fun _ => rfl⟩

/-! ### Steps and the run state -/

theorem witness_StepRunsTheDecodedInstruction :
    (∃ w s1 i, withInput.run = .running ∧ memRead withInput.pc withInput = .ok (w, s1) ∧ decode w = .ok i) ∧
    (∃ w s1 i, memRead { withInput with pc := 0xFE00#16 }.pc { withInput with pc := 0xFE00#16 } = .ok (w, s1) ∧
      decode w = .ok i) ∧
    (withInput.pc ≠ 0xFE00#16 ∧ ∃ i, decode (withInput.cell withInput.pc) = .ok i) ∧
    (∃ f, memRead { ended with pc := 0xFE00#16 }.pc { ended with pc := 0xFE00#16 } = .error f) ∧
    { State.reset with run := .halted }.run ≠ .running :=
  ⟨⟨_, _, _, rfl, rfl, rfl⟩, ⟨_, _, _, rfl, rfl⟩, ⟨by decide, _, rfl⟩, ⟨_, rfl⟩, by decide⟩

theorem witness_FetchIncrementsPcAndOnlyJumpsChangeIt :
    (∃ w s1, fetch { withInput with pc := 0xFFFF#16 } = .ok (w, s1)) ∧
    (∃ t, exec (.lea 0 0#9) withInput = .next t ∧ mayJump (.lea 0 0#9) = false) ∧
    ∃ t, exec (.br 0b011#3 5#9) withInput = .next t ∧ 0b011#3 &&& withInput.cond = 0b000#3 :=
  ⟨⟨_, _, rfl⟩, ⟨_, rfl, rfl⟩, _, rfl, by decide⟩

theorem witness_FetchAtKeyboardStatusFaultsAsRti :
    { withInput with pc := 0xFE00#16 }.run = .running ∧ { withInput with pc := 0xFE00#16 }.pc = 0xFE00#16 ∧
      ∃ c s1, inChar { withInput with pc := 0xFE00#16 } = .ok (c, s1) := ⟨rfl, rfl, _, _, rfl⟩

theorem witness_RunStateChangesOnlyByHaltAndFaults :
    (∃ t, step (stateAt 0x3000#16 [(0x3000#16, 0xF025#16)]) = .next t ∧ t.run = .halted) ∧
    (∃ t, step (stateAt 0x3000#16 [(0x3000#16, 0xF0FF#16)]) = .next t ∧ t.run = .faulted (.badTrap 0xFF#8)) ∧
    (∃ t, step (stateAt 0x3000#16 [(0x3000#16, 0x8000#16)]) = .next t ∧ t.run = .faulted (.unusedOpcode .rti)) ∧
    { State.reset with run := .halted }.run ≠ .running :=
  ⟨⟨_, rfl, rfl⟩, ⟨_, rfl, rfl⟩, ⟨_, rfl, rfl⟩, by decide⟩

theorem witness_FaultChangesOnlyTheRunState :
    (∃ t, step (stateAt 0x3000#16 [(0x3000#16, 0xD000#16)]) = .next t ∧ t.run = .faulted (.unusedOpcode .res)) ∧
    { State.reset with run := .faulted .badOpcode }.run = .faulted .badOpcode := ⟨⟨_, rfl, rfl⟩, rfl⟩

/-- GETC at the end of input under Block. -/
theorem witness_RunningStepStopsOnlyForInputOrEndlessString_input :
    let s := endInput (stateAt 0x3000#16 [(0x3000#16, 0xF020#16)])
    s.run = .running ∧ ∀ t, step s ≠ .next t :=
  ⟨rfl, fun t h => by
    have hf : step (endInput (stateAt 0x3000#16 [(0x3000#16, 0xF020#16)])) = .fault .inputExhausted := rfl
    rw [hf] at h; cases h⟩

theorem noZeroCell_fetch (w : Word) : fetch (noZeroCell w) = .ok (w, setPc 0x3001#16 (noZeroCell w)) := by
  refine fetch_ok.mpr ⟨noZeroCell w, ?_, rfl⟩
  have hpc : (noZeroCell w).pc = 0x3000#16 := rfl
  rw [hpc, memRead_of_ne (by decide), noZeroCell, memWrite_cell, if_pos rfl]

theorem step_endless_puts {s s1 : State} (hrun : s.run = .running) (hf : fetch s = .ok (0xF022#16, s1))
    (hl : stringLength s1.mem Config.memCells (s1.reg 0) = none) : step s = .fault .endlessString := by
  have hd : decode 0xF022#16 = .ok .trapPuts := by decide
  simp only [step, hrun, hf, afterAccess, hd]
  exact writeString_fault.mpr ⟨rfl, hl⟩

theorem noZeroCell_step : step (noZeroCell 0xF022#16) = .fault .endlessString := by
  refine step_endless_puts rfl (noZeroCell_fetch 0xF022#16) ?_
  rw [setPc_mem, setPc_reg]
  exact noZeroCell_stringLength 0xF022#16 (by decide)

/-- PUTS with no zero cell in memory. -/
theorem witness_RunningStepStopsOnlyForInputOrEndlessString_string :
    (noZeroCell 0xF022#16).run = .running ∧ ∀ t, step (noZeroCell 0xF022#16) ≠ .next t :=
  ⟨rfl, fun t h => by rw [noZeroCell_step] at h; cases h⟩

/-! ### Frames and invariants -/

theorem witness_OnlyDestinationRegisterIsWritten :
    (∃ t, exec (.jsr 1#11) withInput = .next t ∧ destination (.jsr 1#11) ≠ some 6) ∧
      ∃ t, exec (.st 0 1#9) withInput = .next t ∧ destination (.st 0 1#9) ≠ some 0 :=
  ⟨⟨_, rfl, by decide⟩, _, rfl, by decide⟩

theorem witness_CondWrittenOnlyByFlagSettingInstructions :
    (∃ t, exec (.ld 5 0#9) withInput = .next t ∧ setsFlags (.ld 5 0#9) = true ∧ destination (.ld 5 0#9) = some 5) ∧
      ∃ t, exec .trapGetc withInput = .next t ∧ setsFlags .trapGetc = false :=
  ⟨⟨_, rfl, rfl, rfl⟩, _, rfl, rfl⟩

theorem witness_CondIsReadOnlyByBranch :
    (∀ nzp offset9, Instr.trapGetc ≠ .br nzp offset9) ∧ (∃ t, exec .trapGetc withInput = .next t) ∧
      ∃ f, exec .trapGetc ended = .fault f := ⟨by simp, ⟨_, rfl⟩, _, rfl⟩

theorem witness_OnlyStoredAndKeyboardCellsChange :
    (∃ t, exec (.st 0 1#9) withInput = .next t ∧ storeAddress (.st 0 1#9) withInput = some 0x3002#16 ∧
      storeAddress (.st 0 1#9) withInput ≠ some 0x3003#16) ∧
    (∃ t, exec (.ldi 0 0#9) withInput = .next t ∧ storeAddress (.ldi 0 0#9) withInput ≠ some 0xFE01#16 ∧
      0xFE00#16 ∈ dataReads (.ldi 0 0#9) withInput ∧ 0xFE01#16 ≠ 0xFE00#16 ∧ 0xFE01#16 ≠ 0xFE02#16) ∧
    (∃ t, exec (.sti 3 0#9) withInput = .next t ∧ storeAddress (.sti 3 0#9) withInput = some 0xFE00#16) ∧
    ∃ t, exec (.str 3 3 0b100000#6) withInput = .next t ∧
      storeAddress (.str 3 3 0b100000#6) withInput = some 0xFFE0#16 :=
  ⟨⟨_, rfl, by decide, by decide⟩, ⟨_, rfl, by decide, by decide, by decide, by decide⟩, ⟨_, rfl, by decide⟩, _, rfl, by decide⟩

theorem witness_OutputIsFlushedExactlyAtFlushPoints :
    (∃ t, exec .trapPuts State.reset = .next t) ∧ ∃ t, exec .trapOut withInput = .next t := ⟨⟨_, rfl⟩, _, rfl⟩

theorem witness_ConsoleAndHostFieldsFrame :
    (∃ t, exec .trapIn withInput = .next t ∧ asksForInput .trapIn withInput ∧
      (withInput.input ≠ [] ∨ withInput.inputEnded = false)) ∧
    ∃ t, exec (.ldi 0 1#9) withInput = .next t ∧ mayOutput (.ldi 0 1#9) = false ∧ ¬ asksForInput (.ldi 0 1#9) withInput :=
  ⟨⟨_, rfl, .inr (.inl rfl), .inl (by decide)⟩, _, rfl, rfl, by unfold asksForInput; decide⟩

theorem witness_StepKeepsTheRunInvariant :
    Inv (stateAt 0x3000#16 [(0x3000#16, 0xF021#16), (0xFFFF#16, 0x0001#16)]) ∧
      ∃ t, step (stateAt 0x3000#16 [(0x3000#16, 0xF021#16), (0xFFFF#16, 0x0001#16)]) = .next t :=
  ⟨⟨by decide, .inl rfl, Nat.le_refl 0⟩, _, rfl⟩

theorem witness_ResetMeetsTheRunInvariant : ∃ s, loadImage [0x30#8, 0x00#8, 0xF0#8, 0x25#8] = .ok s := ⟨_, rfl⟩

theorem witness_ExactlyOneFlagStaysActive :
    (OneFlagActive withInput.cond ∧ ∃ t, step withInput = .next t) ∧
      setsFlags (.not 0 1) = true ∧ ∃ t, exec (.not 0 1) State.reset = .next t :=
  ⟨⟨.inl rfl, _, rfl⟩, rfl, _, rfl⟩

theorem witness_StepOnlyAppendsOutputAndAdvancesInput :
    (∃ t, step (stateAt 0x3000#16 [(0x3000#16, 0xF021#16)]) = .next t) ∧
      (stateAt 0x3000#16 [(0x3000#16, 0xF021#16)]).flushed ≤ (stateAt 0x3000#16 [(0x3000#16, 0xF021#16)]).output.length :=
  ⟨⟨_, rfl⟩, by decide⟩

/-- An abort between two instructions; none of a run that has ended (R165, R177). -/
theorem test_abort_only_while_running :
    MayAbortWith State.reset State.reset ∧
      ∀ t, ¬ MayAbortWith { State.reset with run := .halted } t :=
  ⟨⟨rfl, .inl rfl⟩, fun _ h => by cases h.1⟩

/-- An abort during a PUTS that never ends: the fetch is seen. -/
theorem witness_AbortLeavesNoInstructionHalfDone :
    MayAbortWith (noZeroCell 0xF022#16) (outBytes [] (setPc 0x3001#16 (noZeroCell 0xF022#16))) ∧
      outBytes [] (setPc 0x3001#16 (noZeroCell 0xF022#16)) ≠ noZeroCell 0xF022#16 := by
  have hd : decode 0xF022#16 = .ok .trapPuts := by decide
  generalize hs : noZeroCell 0xF022#16 = s
  have hf := hs ▸ noZeroCell_fetch 0xF022#16
  have hp := hs ▸ noZeroCell_step
  have hrun : s.run = .running := hs ▸ rfl
  refine ⟨⟨hrun, .inr ⟨_, _, .trapPuts, putsBytes, 0, 0, hf, hd, rfl, hp, by simp [stringBytes]⟩⟩, fun h => ?_⟩
  have hpc : s.pc = 0x3000#16 := hs ▸ rfl
  have h1 : 0x3001#16 = s.pc := congrArg State.pc h
  exact absurd (h1.trans hpc) (by decide)

end Sys2Proof.Tests
end

section
/-! The two extensions of spec/00_scope.md R10, stated for every field width. -/

namespace Sys2Proof.Machine

/-- The signed value is the field's own, at every width that fits in a word (R10). -/
theorem sext_toInt {n : Nat} (f : BitVec n) (hn : n ≤ 16) : (sext f).toInt = f.toInt :=
  BitVec.toInt_signExtend_of_le hn

theorem sext_of_signBit_clear {n : Nat} {f : BitVec n} (hsign : f.msb = false) :
    sext f = f.setWidth 16 :=
  BitVec.signExtend_eq_setWidth_of_msb_false hsign

theorem getLsbD_ones_shiftLeft (n : Nat) {i : Nat} (hi : i < 16) :
    (0xFFFF#16 <<< n).getLsbD i = !decide (i < n) := by
  rw [show 0xFFFF#16 = BitVec.allOnes 16 from rfl, BitVec.getLsbD_shiftLeft, BitVec.getLsbD_allOnes]
  simp [hi, Nat.sub_lt_of_lt hi]

/-- Below position `n` the mask is zero and the field shows; from `n` on the mask is ones, as is the sign (R10). -/
theorem sext_of_signBit_set {n : Nat} {f : BitVec n} (hsign : f.msb = true) :
    sext f = f.setWidth 16 ||| (0xFFFF#16 <<< n) := by
  refine BitVec.eq_of_getLsbD_eq fun i hi => ?_
  rw [sext, BitVec.getLsbD_signExtend, BitVec.getLsbD_or, BitVec.getLsbD_setWidth, getLsbD_ones_shiftLeft n hi]
  by_cases hin : i < n
  · simp [hin]
  · simp [hi, hin, hsign]

/-- The source's `signExtend(value, bitWidth)` (R10): OR with the shifted ones exactly when the top bit is set. -/
theorem sext_eq_ite_or_ones {n : Nat} (f : BitVec n) :
    sext f = if f.getLsbD (n - 1) then f.setWidth 16 ||| (0xFFFF#16 <<< n) else f.setWidth 16 := by
  rw [← BitVec.msb_eq_getLsbD_last]
  split
  case isTrue hset => exact sext_of_signBit_set hset
  case isFalse hclear => exact sext_of_signBit_clear (Bool.eq_false_of_not_eq_true hclear)

theorem zext16_toNat (c : Byte) : (zext16 c).toNat = c.toNat :=
  BitVec.toNat_setWidth_of_le (by decide)

/-- Settles O7: the two laws of `sext` above, read at each of the four widths. -/
theorem signExtensionFollowsItsDefinition : Obligations.SignExtensionFollowsItsDefinition :=
  ⟨fun f => ⟨sext_toInt f (by decide), sext_eq_ite_or_ones f⟩,
   fun f => ⟨sext_toInt f (by decide), sext_eq_ite_or_ones f⟩,
   fun f => ⟨sext_toInt f (by decide), sext_eq_ite_or_ones f⟩,
   fun f => ⟨sext_toInt f (by decide), sext_eq_ite_or_ones f⟩,
   zext16_toNat⟩

end Sys2Proof.Machine
end

section
/-! What a fetch and a data read leave unchanged: everything but memory, the input queue and the input position. -/

namespace Sys2Proof.Machine

/-- `t` is `s` but for memory, the input queue and the input position, which are all that `InChar` and `MemRead` can change
(R43, R50, R129). -/
structure ReadFrame (s t : State) : Prop where
  regs : t.regs = s.regs
  pc : t.pc = s.pc
  cond : t.cond = s.cond
  run : t.run = s.run
  inputEnded : t.inputEnded = s.inputEnded
  eofPolicy : t.eofPolicy = s.eofPolicy
  output : t.output = s.output
  flushed : t.flushed = s.flushed

theorem readFrame_update (s : State) (m : Memory) (input : List Byte) (pos : Nat) :
    ReadFrame s { s with mem := m, input := input, inputPos := pos } := ⟨rfl, rfl, rfl, rfl, rfl, rfl, rfl, rfl⟩

theorem ReadFrame.refl (s : State) : ReadFrame s s := readFrame_update s s.mem s.input s.inputPos

theorem ReadFrame.reg {s t : State} (h : ReadFrame s t) (r : Reg) : t.reg r = s.reg r := by
  simp only [State.reg, h.regs]

theorem inChar_readFrame {s s1 : State} {c : Word} (h : inChar s = .ok (c, s1)) : ReadFrame s s1 := by
  rw [inChar_frame h]
  exact readFrame_update s s.mem s1.input s1.inputPos

theorem memRead_readFrame {a v : Word} {s t : State} (h : memRead a s = .ok (v, t)) : ReadFrame s t := by
  rw [(memRead_frame h).1]
  exact readFrame_update s t.mem t.input t.inputPos

/-- Away from 0xFE00 the fetch moves only pc; at 0xFE00 it delivers 0x8000 and takes one character (R24, R57, D7). -/
theorem fetch_cases {s s1 : State} {w : Word} (h : fetch s = .ok (w, s1)) :
    (s.pc ≠ 0xFE00#16 ∧ w = s.cell s.pc ∧ s1 = setPc (s.pc + 1#16) s) ∨
      (s.pc = 0xFE00#16 ∧ w = 0x8000#16 ∧
        ∃ c s0, inChar s = .ok (c, s0) ∧ s1 = setPc (s.pc + 1#16) (keyboardLatched c s0)) := by
  obtain ⟨s0, hread, rfl⟩ := fetch_ok.mp h
  rcases memRead_ok.mp hread with ⟨hpc, hw, rfl⟩ | ⟨hpc, hw, c, s0', hchar, rfl⟩
  · exact .inl ⟨hpc, hw, rfl⟩
  · exact .inr ⟨hpc, hw, c, s0', hchar, rfl⟩

/-- The fetch changes pc and what a `MemRead` changes. -/
theorem fetch_frame {s s1 : State} {w : Word} (h : fetch s = .ok (w, s1)) :
    s1.pc = s.pc + 1#16 ∧ ReadFrame s { s1 with pc := s.pc } := by
  obtain ⟨s0, hread, rfl⟩ := fetch_ok.mp h
  obtain ⟨hregs, -, hcond, hrun, hended, heof, hout, hflushed⟩ := memRead_readFrame hread
  exact ⟨rfl, hregs, rfl, hcond, hrun, hended, heof, hout, hflushed⟩

end Sys2Proof.Machine
end

section
/-! Every word decodes, so a step is the meaning of the instruction it fetched (R68, R72). -/

namespace Sys2Proof

/-- Each of the 16 values of the opcode field has a row (R61). -/
theorem decode_ok (w : Word) : ∃ i, decode w = .ok i := by
  unfold decode
  split
  case h_17 =>
    exfalso
    generalize opcodeField w = op at *
    revert op
    decide
  all_goals exact ⟨_, rfl⟩

theorem decode_keyboardReady : decode 0x8000#16 = .ok .rti := by decide

namespace Machine

theorem step_next_exec {s t : State} (h : step s = .next t) :
    s.run = .running ∧ ∃ w s1 i, fetch s = .ok (w, s1) ∧ decode w = .ok i ∧ exec i s1 = .next t := by
  obtain ⟨hrun, w, s1, hfetch, ⟨i, hi, hexec⟩ | ⟨hbad, -⟩⟩ := step_next.mp h
  · exact ⟨hrun, w, s1, i, hfetch, hi, hexec⟩
  · obtain ⟨i, hi⟩ := decode_ok w
    cases hi.symm.trans hbad

theorem step_of_not_running {s : State} (h : s.run ≠ .running) : ∃ f, step s = .fault f := by
  unfold step
  rcases hrun : s.run with _ | _ | r
  · exact absurd hrun h
  · exact ⟨_, rfl⟩
  · exact ⟨_, rfl⟩

end Machine

end Sys2Proof
end

section
/-! Everything an instruction that gives a next state can do, said once. -/

namespace Sys2Proof.Machine

/-- The state `s1` after the data reads of `i` in `s`: `s` itself, or, when one of them is the read of 0xFE00, `s` with a
character taken and the keyboard cells latched (R42, R43). -/
def ReadsData (i : Instr) (s s1 : State) : Prop :=
  (¬ asksForInput i s ∧ s1 = s) ∨
    (asksForInput i s ∧ ∃ c s0, inChar s = .ok (c, s0) ∧ s1 = keyboardLatched c s0)

theorem ReadsData.frame {i : Instr} {s s1 : State} (h : ReadsData i s s1) : ReadFrame s s1 := by
  obtain ⟨-, rfl⟩ | ⟨-, c, s0, hchar, rfl⟩ := h
  · exact ReadFrame.refl s1
  · exact memRead_readFrame (memRead_kbsr_of_ok hchar)

theorem ReadsData.mem_wf {i : Instr} {s s1 : State} (h : ReadsData i s s1) (hs : s.mem.wf) : s1.mem.wf := by
  obtain ⟨-, rfl⟩ | ⟨-, c, s0, hchar, rfl⟩ := h
  · exact hs
  · exact keyboardLatched_wf (inChar_mem hchar ▸ hs)

theorem readsData_of_no_read {i : Instr} {s : State} (h : ¬ asksForInput i s) : ReadsData i s s := .inl ⟨h, rfl⟩

theorem readsData_of_memRead {i : Instr} {a v : Word} {s s1 : State} (h : memRead a s = .ok (v, s1))
    (hask : asksForInput i s ↔ a = 0xFE00#16) : ReadsData i s s1 := by
  obtain ⟨hne, -, rfl⟩ | ⟨heq, -, hchar⟩ := memRead_ok.mp h
  · exact .inl ⟨mt hask.mp hne, rfl⟩
  · exact .inr ⟨hask.mpr heq, hchar⟩

/-- The read of 0xFE00 gives the pointer 0x8000, so a pointer read and the read at the pointer take at most one character. -/
theorem readsData_of_two_memReads {i : Instr} {a p v : Word} {s s1 s2 : State} (hp : memRead a s = .ok (p, s1))
    (hv : memRead p s1 = .ok (v, s2)) (hask : asksForInput i s ↔ a = 0xFE00#16 ∨ p = 0xFE00#16) : ReadsData i s s2 := by
  obtain ⟨hne, -, rfl⟩ | ⟨heq, rfl, hchar⟩ := memRead_ok.mp hp
  · exact readsData_of_memRead hv (by simpa [hne] using hask)
  · rw [memRead_of_ne (by decide)] at hv
    cases hv
    exact .inr ⟨hask.mpr (.inl heq), hchar⟩

theorem pointerAt_of_memRead {a p : Word} {s s1 : State} (h : memRead a s = .ok (p, s1)) : pointerAt a s = some p := by
  simp only [pointerAt, h]

theorem loadFrom_next {dr : Reg} {a : Word} {s t : State} :
    loadFrom dr a s = .next t ↔ ∃ v s1, memRead a s = .ok (v, s1) ∧ writeResult dr v s1 = t := by
  simp only [loadFrom, afterAccess_next, Host.Outcome.next.injEq]

/-- What instruction `i` makes of the state `s` after its fetch: one rule for the flag-setting instructions, one for the stores,
and one for each of the others. -/
inductive Effect (s : State) : Instr → State → Prop where
  /-- ADD, AND, NOT, LD, LDI, LDR, LEA (R28) -/
  | result {i : Instr} {dr : Reg} {v : Word} {s1 : State} (hflags : setsFlags i = true) (hdest : destination i = some dr)
      (hreads : ReadsData i s s1) : Effect s i (writeResult dr v s1)
  /-- ST, STI, STR (R104 to R106) -/
  | store {i : Instr} {a v : Word} {s1 : State} (hflags : setsFlags i = false) (hstore : storeAddress i s = some a)
      (hreads : ReadsData i s s1) : Effect s i (memWrite a v s1)
  | brTaken {nzp : BitVec 3} {offset9 : BitVec 9} (hmask : nzp &&& s.cond ≠ 0b000#3) :
      Effect s (.br nzp offset9) (setPc (pcRelative9 s.pc offset9) s)
  | brNotTaken {nzp : BitVec 3} {offset9 : BitVec 9} (hmask : nzp &&& s.cond = 0b000#3) : Effect s (.br nzp offset9) s
  | ret : Effect s .ret (setPc (s.reg 7) s)
  | jmp {base : Reg} : Effect s (.jmp base) (setPc (s.reg base) s)
  | jsr {offset11 : BitVec 11} : Effect s (.jsr offset11) (setPc (pcRelative11 s.pc offset11) (linkR7 s))
  | jsrr {base : Reg} : Effect s (.jsrr base) (setPc ((linkR7 s).reg base) (linkR7 s))
  | getc {c : Word} {s1 : State} (hchar : inChar s = .ok (c, s1)) : Effect s .trapGetc (flush (setReg 0 c s1))
  | out : Effect s .trapOut (outChar (lowByte (s.reg 0)) s)
  | puts {n : Nat} (hlength : stringLength s.mem Config.memCells (s.reg 0) = some n) :
      Effect s .trapPuts (flush (outBytes (stringBytes putsBytes s.mem n (s.reg 0)) s))
  | inEcho {c : Word} {s1 : State} (hchar : inChar s = .ok (c, s1)) :
      Effect s .trapIn (setReg 0 c (outChar (lowByte c) s1))
  | putsp {n : Nat} (hlength : stringLength s.mem Config.memCells (s.reg 0) = some n) :
      Effect s .trapPutsp (flush (outBytes (stringBytes putspBytes s.mem n (s.reg 0)) s))
  | halt : Effect s .trapHalt (halt (flush s))
  | badTrap {v : BitVec 8} : Effect s (.trapUnrecognized v) (raiseFault (.badTrap v) s)
  | rti : Effect s .rti (raiseFault (.unusedOpcode .rti) s)
  | res : Effect s .res (raiseFault (.unusedOpcode .res) s)

theorem effect_of_exec {i : Instr} {s t : State} (h : exec i s = .next t) : Effect s i t := by
  cases i with
  | addReg | addImm | andReg | andImm | not | lea =>
    cases h
    exact .result rfl rfl (readsData_of_no_read (by simp [asksForInput, dataReads]))
  | br nzp offset9 =>
    by_cases hmask : nzp &&& s.cond = 0b000#3
    · simp only [exec, execBr, hmask, ne_eq, not_true_eq_false, ↓reduceIte, Host.Outcome.next.injEq] at h
      exact h ▸ .brNotTaken hmask
    · simp only [exec, execBr, hmask, ne_eq, not_false_eq_true, ↓reduceIte, Host.Outcome.next.injEq] at h
      exact h ▸ .brTaken hmask
  | ret => cases h; exact .ret
  | jmp => cases h; exact .jmp
  | jsr => cases h; exact .jsr
  | jsrr => cases h; exact .jsrr
  | ld | ldr =>
    obtain ⟨v, s1, hread, rfl⟩ := loadFrom_next.mp h
    exact .result rfl rfl (readsData_of_memRead hread (by simp [asksForInput, dataReads, eq_comm]))
  | ldi =>
    obtain ⟨p, s1, hp, h⟩ := afterAccess_next.mp h
    obtain ⟨v, s2, hv, rfl⟩ := loadFrom_next.mp h
    exact .result rfl rfl (readsData_of_two_memReads hp hv
      (by simp [asksForInput, dataReads, pointerAt_of_memRead hp, eq_comm]))
  | st | str =>
    cases h
    exact .store rfl rfl (readsData_of_no_read (by simp [asksForInput, dataReads]))
  | sti =>
    obtain ⟨p, s1, hp, h⟩ := afterAccess_next.mp h
    cases h
    exact .store rfl (pointerAt_of_memRead hp)
      (readsData_of_memRead hp (by simp [asksForInput, dataReads, eq_comm]))
  | trapGetc =>
    obtain ⟨c, s1, hchar, h⟩ := afterAccess_next.mp h
    cases h
    exact .getc hchar
  | trapOut => cases h; exact .out
  | trapPuts =>
    obtain ⟨n, hlength, rfl⟩ := writeString_next.mp h
    exact .puts hlength
  | trapIn =>
    obtain ⟨c, s1, hchar, h⟩ := afterAccess_next.mp h
    cases h
    exact .inEcho hchar
  | trapPutsp =>
    obtain ⟨n, hlength, rfl⟩ := writeString_next.mp h
    exact .putsp hlength
  | trapHalt => cases h; exact .halt
  | trapUnrecognized => cases h; exact .badTrap
  | rti => cases h; exact .rti
  | res => cases h; exact .res

end Sys2Proof.Machine
end

section
/-! The frame of an instruction, one lemma per part of the state (spec/10_state.md R21, R24, R28, R30). -/

namespace Sys2Proof.Machine

/-! ### Registers and pc -/

theorem Effect.reg_of_ne_destination {i : Instr} {s t : State} {r : Reg} (h : Effect s i t)
    (hr : destination i ≠ some r) : t.reg r = s.reg r := by
  cases h with
  | result _ hdest hreads =>
    rw [hdest, ne_eq, Option.some.injEq] at hr
    rw [writeResult_reg, if_neg (Ne.symm hr), hreads.frame.reg]
  | store _ _ hreads => exact hreads.frame.reg r
  | getc hchar | inEcho hchar =>
    have hr0 : r ≠ 0 := by simpa [destination, eq_comm] using hr
    simp [hr0, (inChar_readFrame hchar).reg]
  | jsr | jsrr =>
    have hr7 : r ≠ 7 := by simpa [destination, eq_comm] using hr
    simp [hr7]
  | _ => rfl

theorem Effect.pc_of_not_mayJump {i : Instr} {s t : State} (h : Effect s i t) (hi : mayJump i = false) :
    t.pc = s.pc := by
  cases h with
  | result _ _ hreads | store _ _ hreads => exact hreads.frame.pc
  | getc hchar | inEcho hchar => exact (inChar_readFrame hchar).pc
  | brTaken | ret | jmp | jsr | jsrr => cases hi
  | _ => rfl

/-! ### The condition register -/

theorem Effect.cond_of_setsFlags {i : Instr} {s t : State} (h : Effect s i t) (hi : setsFlags i = true) :
    ∃ dr, destination i = some dr ∧ t.cond = condOf (t.reg dr) := by
  cases h with
  | result _ hdest _ => exact ⟨_, hdest, by simp⟩
  | store hflags _ _ => cases hflags.symm.trans hi
  | _ => cases hi

theorem Effect.cond_of_not_setsFlags {i : Instr} {s t : State} (h : Effect s i t) (hi : setsFlags i = false) :
    t.cond = s.cond := by
  cases h with
  | result hflags _ _ => cases hflags.symm.trans hi
  | store _ _ hreads => exact hreads.frame.cond
  | getc hchar | inEcho hchar => exact (inChar_readFrame hchar).cond
  | _ => rfl

theorem oneFlagActive_condOf (v : Word) : OneFlagActive (condOf v) := by
  unfold condOf
  split
  · exact .inl rfl
  · split
    · exact .inr (.inl rfl)
    · exact .inr (.inr rfl)

theorem Effect.oneFlagActive_of_setsFlags {i : Instr} {s t : State} (h : Effect s i t) (hi : setsFlags i = true) :
    OneFlagActive t.cond := by
  obtain ⟨dr, -, hcond⟩ := h.cond_of_setsFlags hi
  exact hcond ▸ oneFlagActive_condOf (t.reg dr)

theorem Effect.cond_cases {i : Instr} {s t : State} (h : Effect s i t) : t.cond = s.cond ∨ OneFlagActive t.cond := by
  cases hi : setsFlags i
  case false => exact .inl (h.cond_of_not_setsFlags hi)
  case true => exact .inr (h.oneFlagActive_of_setsFlags hi)

/-! ### The run state -/

/-- Only HALT and the faults write `run` (R30, R127, R140, R141). -/
theorem Effect.run_cases {i : Instr} {s t : State} (h : Effect s i t) :
    t.run = s.run ∨ (i = .trapHalt ∧ t.run = .halted) ∨
      ∃ r, t.run = .faulted r ∧ ((i = .rti ∧ r = .unusedOpcode .rti) ∨ (i = .res ∧ r = .unusedOpcode .res) ∨
        ∃ v, i = .trapUnrecognized v ∧ r = .badTrap v) := by
  cases h with
  | result _ _ hreads | store _ _ hreads => exact .inl hreads.frame.run
  | getc hchar | inEcho hchar => exact .inl (inChar_readFrame hchar).run
  | halt => exact .inr (.inl ⟨rfl, rfl⟩)
  | rti => exact .inr (.inr ⟨_, rfl, .inl ⟨rfl, rfl⟩⟩)
  | res => exact .inr (.inr ⟨_, rfl, .inr (.inl ⟨rfl, rfl⟩)⟩)
  | badTrap => exact .inr (.inr ⟨_, rfl, .inr (.inr ⟨_, rfl, rfl⟩)⟩)
  | _ => exact .inl rfl

/-! ### Memory -/

theorem Effect.mem_wf {i : Instr} {s t : State} (h : Effect s i t) (hs : s.mem.wf) : t.mem.wf := by
  cases h with
  | result _ _ hreads => exact hreads.mem_wf hs
  | store _ _ hreads => exact memWrite_wf (hreads.mem_wf hs) _ _
  | getc hchar | inEcho hchar => exact (inChar_mem hchar).symm ▸ hs
  | _ => exact hs

/-! ### Output -/

theorem Effect.output_of_not_mayOutput {i : Instr} {s t : State} (h : Effect s i t) (hi : mayOutput i = false) :
    t.output = s.output := by
  cases h with
  | result _ _ hreads | store _ _ hreads => exact hreads.frame.output
  | getc hchar => exact (inChar_readFrame hchar).output
  | out | puts | inEcho | putsp => cases hi
  | _ => rfl

theorem Effect.output_append {i : Instr} {s t : State} (h : Effect s i t) : ∃ more, t.output = s.output ++ more := by
  cases hi : mayOutput i
  case false => exact ⟨[], by rw [h.output_of_not_mayOutput hi, List.append_nil]⟩
  case true =>
    cases h with
    | result _ _ hreads | store _ _ hreads => exact ⟨[], by simp [hreads.frame.output]⟩
    | inEcho hchar => exact ⟨_, by rw [setReg_output, outChar_output, (inChar_readFrame hchar).output]⟩
    | out | puts | putsp => exact ⟨_, rfl⟩
    | _ => cases hi

/-- An instruction leaves the flush mark or moves it to the end of the output (R128). -/
theorem Effect.flushed_cases {i : Instr} {s t : State} (h : Effect s i t) :
    t.flushed = s.flushed ∨ t.flushed = t.output.length := by
  cases h with
  | result _ _ hreads | store _ _ hreads => exact .inl hreads.frame.flushed
  | inEcho hchar => exact .inl (inChar_readFrame hchar).flushed
  | getc | puts | putsp | halt => exact .inr rfl
  | _ => exact .inl rfl

/-! ### Input and the host's fields -/

theorem Effect.host_fields {i : Instr} {s t : State} (h : Effect s i t) :
    t.eofPolicy = s.eofPolicy ∧ t.inputEnded = s.inputEnded := by
  cases h with
  | result _ _ hreads | store _ _ hreads => exact ⟨hreads.frame.eofPolicy, hreads.frame.inputEnded⟩
  | getc hchar | inEcho hchar => exact ⟨(inChar_readFrame hchar).eofPolicy, (inChar_readFrame hchar).inputEnded⟩
  | _ => exact ⟨rfl, rfl⟩

theorem ReadsData.input_of_not_asks {i : Instr} {s s1 : State} (h : ReadsData i s s1) (hi : ¬ asksForInput i s) :
    s1.input = s.input ∧ s1.inputPos = s.inputPos := by
  obtain ⟨-, rfl⟩ | ⟨hask, -⟩ := h
  · exact ⟨rfl, rfl⟩
  · exact absurd hask hi

theorem ReadsData.input_of_asks {i : Instr} {s s1 : State} (h : ReadsData i s s1) (hi : asksForInput i s) :
    ∃ c s0, inChar s = .ok (c, s0) ∧ s1.input = s0.input ∧ s1.inputPos = s0.inputPos := by
  obtain ⟨hask, -⟩ | ⟨-, c, s0, hchar, rfl⟩ := h
  · exact absurd hi hask
  · exact ⟨c, s0, hchar, rfl, rfl⟩

theorem Effect.input_of_not_asks {i : Instr} {s t : State} (h : Effect s i t) (hi : ¬ asksForInput i s) :
    t.input = s.input ∧ t.inputPos = s.inputPos := by
  cases h with
  | result _ _ hreads | store _ _ hreads => exact hreads.input_of_not_asks hi
  | getc => exact absurd (.inl rfl) hi
  | inEcho => exact absurd (.inr (.inl rfl)) hi
  | _ => exact ⟨rfl, rfl⟩

/-- An instruction that asks for input takes what one call of `InChar` takes. -/
theorem Effect.input_of_asks {i : Instr} {s t : State} (h : Effect s i t) (hi : asksForInput i s) :
    ∃ c s1, inChar s = .ok (c, s1) ∧ t.input = s1.input ∧ t.inputPos = s1.inputPos := by
  cases h with
  | result _ _ hreads | store _ _ hreads => exact hreads.input_of_asks hi
  | getc hchar | inEcho hchar => exact ⟨_, _, hchar, rfl, rfl⟩
  | _ => simp [asksForInput, dataReads] at hi

theorem inChar_consumes {s s1 : State} {c : Word} (h : inChar s = .ok (c, s1))
    (hs : s.input ≠ [] ∨ s.inputEnded = false) : s1.input = s.input.tail ∧ s1.inputPos = s.inputPos + 1 := by
  obtain ⟨ch, rest, hin, -, rfl⟩ | ⟨hin, -, ch, -, -, rfl⟩ | ⟨hin, hended, -⟩ := inChar_ok.mp h
  · exact ⟨by rw [hin, List.tail_cons], rfl⟩
  · exact ⟨by rw [hin, List.tail_nil], rfl⟩
  · simp [hin, hended] at hs

theorem Effect.inputPos_cases {i : Instr} {s t : State} (h : Effect s i t) :
    t.inputPos = s.inputPos ∨ t.inputPos = s.inputPos + 1 := by
  by_cases hi : asksForInput i s
  · obtain ⟨c, s1, hchar, -, hpos⟩ := h.input_of_asks hi
    exact hpos ▸ (inChar_position hchar).symm
  · exact .inl (h.input_of_not_asks hi).2

end Sys2Proof.Machine
end

section
/-! The obligations on one instruction: registers, condition register and console. -/

namespace Sys2Proof.Machine

/-- Settles O49: the frame of the registers, read at `exec`. -/
theorem onlyDestinationRegisterIsWritten : Obligations.OnlyDestinationRegisterIsWritten :=
  fun _ _ _ _ hexec hr => (effect_of_exec hexec).reg_of_ne_destination hr

/-- Settles O50: a flag-setting instruction ends with `setcc` of its one destination. -/
theorem condWrittenOnlyByFlagSettingInstructions : Obligations.CondWrittenOnlyByFlagSettingInstructions := by
  refine ⟨fun i s t r hexec hflags hdest => ?_, fun i s t hexec hflags =>
    (effect_of_exec hexec).cond_of_not_setsFlags hflags⟩
  obtain ⟨dr, hdr, hcond⟩ := (effect_of_exec hexec).cond_of_setsFlags hflags
  obtain rfl : dr = r := Option.some.inj (hdr.symm.trans hdest)
  rw [hcond, condOf_eq_signFlag]

/-- Settles O54: of the instructions that ask for input each takes what one `InChar` takes. -/
theorem consoleAndHostFieldsFrame : Obligations.ConsoleAndHostFieldsFrame := by
  intro i s t hexec
  have heff := effect_of_exec hexec
  refine ⟨heff.output_append, heff.output_of_not_mayOutput, heff.input_of_not_asks, fun hask hs => ?_, heff.host_fields⟩
  obtain ⟨c, s1, hchar, hinput, hpos⟩ := heff.input_of_asks hask
  rw [hinput, hpos]
  exact inChar_consumes hchar hs

/-- Settles O44: the fetch by `fetch_ok`, the instructions by their frame of pc. -/
theorem fetchIncrementsPcAndOnlyJumpsChangeIt : Obligations.FetchIncrementsPcAndOnlyJumpsChangeIt := by
  refine ⟨fun s s1 w hfetch => ?_, fun i s t hexec hi => (effect_of_exec hexec).pc_of_not_mayJump hi,
    fun nzp offset9 s t hexec hmask => ?_⟩
  · obtain ⟨s0, hread, rfl⟩ := fetch_ok.mp hfetch
    exact ⟨⟨s0, hread⟩, BitVec.toNat_add s.pc 1#16⟩
  · cases effect_of_exec hexec with
    | brTaken hmeets => exact absurd hmask hmeets
    | brNotTaken _ => rfl
    | result hflags _ _ => cases hflags
    | store _ hstore _ => cases hstore

end Sys2Proof.Machine
end

section
/-! The obligations on one step: the run state, the invariant, the active flag and the streams. -/

namespace Sys2Proof.Machine

theorem fetch_keeps_inv {s s1 : State} {w : Word} (hs : Inv s) (h : fetch s = .ok (w, s1)) : Inv s1 := by
  obtain ⟨hmem, hcond, hflushed⟩ := hs
  obtain ⟨-, hframe⟩ := fetch_frame h
  refine ⟨fetch_wf hmem h, ?_, ?_⟩
  · exact hframe.cond.symm ▸ hcond
  · exact hframe.flushed.symm ▸ hframe.output.symm ▸ hflushed

theorem Effect.flushed_le {i : Instr} {s t : State} (h : Effect s i t) (hs : s.flushed ≤ s.output.length) :
    t.flushed ≤ t.output.length := by
  obtain ⟨more, hout⟩ := h.output_append
  obtain hmark | hmark := h.flushed_cases
  · rw [hmark, hout, List.length_append]
    omega
  · exact hmark.le

theorem Effect.inv {i : Instr} {s t : State} (h : Effect s i t) (hs : Inv s) : Inv t := by
  obtain ⟨hmem, hcond, hflushed⟩ := hs
  refine ⟨h.mem_wf hmem, ?_, h.flushed_le hflushed⟩
  obtain hkept | hflag := h.cond_cases
  · exact hkept ▸ hcond
  · exact .inr hflag

/-- Settles O55: the fetch keeps the invariant, and so does every instruction. -/
theorem stepKeepsTheRunInvariant : Obligations.StepKeepsTheRunInvariant := by
  intro s t hs hstep
  obtain ⟨-, w, s1, i, hfetch, -, hexec⟩ := step_next_exec hstep
  exact (effect_of_exec hexec).inv (fetch_keeps_inv hs hfetch)

/-- Settles O57: a step leaves `cond` or sets it to the flag of a word, and such a flag is one-hot. -/
theorem exactlyOneFlagStaysActive : Obligations.ExactlyOneFlagStaysActive := by
  refine ⟨fun s t hs hstep => ?_, fun i s t hflags hexec => (effect_of_exec hexec).oneFlagActive_of_setsFlags hflags⟩
  obtain ⟨-, w, s1, i, hfetch, -, hexec⟩ := step_next_exec hstep
  obtain hkept | hflag := (effect_of_exec hexec).cond_cases
  · have hcond : s1.cond = s.cond := (fetch_frame hfetch).2.cond
    rwa [hkept, hcond]
  · exact hflag

/-- After a step the run state is still RUNNING, or it is what HALT or a fault of the fetched instruction wrote. -/
theorem step_run_cases {s t : State} (h : step s = .next t) : ∃ w s1, fetch s = .ok (w, s1) ∧
    (t.run = .running ∨ (decode w = .ok .trapHalt ∧ t.run = .halted) ∨
      ∃ r, t.run = .faulted r ∧ ((decode w = .ok .rti ∧ r = .unusedOpcode .rti) ∨
        (decode w = .ok .res ∧ r = .unusedOpcode .res) ∨ ∃ v, decode w = .ok (.trapUnrecognized v) ∧ r = .badTrap v)) := by
  obtain ⟨hrun, w, s1, i, hfetch, hdecode, hexec⟩ := step_next_exec h
  refine ⟨w, s1, hfetch, ?_⟩
  have hrun1 : s1.run = .running := (fetch_frame hfetch).2.run.trans hrun
  simpa only [hdecode, hrun1, Except.ok.injEq] using (effect_of_exec hexec).run_cases

/-- Settles O46: HALTED and FAULTED each exclude the other ways a step can leave the run state. -/
theorem runStateChangesOnlyByHaltAndFaults : Obligations.RunStateChangesOnlyByHaltAndFaults := by
  refine ⟨rfl, fun s t hstep => (step_next.mp hstep).1, fun s => step_of_not_running, fun s t hstep ht => ?_,
    fun s t r hstep ht => ?_⟩
  · obtain ⟨w, s1, hfetch, hrun | ⟨hdecode, -⟩ | ⟨r, hrun, -⟩⟩ := step_run_cases hstep
    · cases hrun.symm.trans ht
    · exact ⟨w, s1, hfetch, hdecode⟩
    · cases hrun.symm.trans ht
  · obtain ⟨w, s1, hfetch, hrun | ⟨-, hrun⟩ | ⟨r', hrun, hreason⟩⟩ := step_run_cases hstep
    · cases hrun.symm.trans ht
    · cases hrun.symm.trans ht
    · cases hrun.symm.trans ht
      exact ⟨w, s1, hfetch, hreason⟩

/-- A step takes at most one character: at 0xFE00 the fetch takes it and delivers RTI, which asks for none (D7). -/
theorem step_inputPos_cases {s t : State} (h : step s = .next t) :
    t.inputPos = s.inputPos ∨ t.inputPos = s.inputPos + 1 := by
  obtain ⟨-, w, s1, i, hfetch, hdecode, hexec⟩ := step_next_exec h
  obtain ⟨-, -, rfl⟩ | ⟨-, rfl, c, s0, hchar, rfl⟩ := fetch_cases hfetch
  · exact (effect_of_exec hexec).inputPos_cases
  · obtain rfl : i = .rti := Except.ok.inj (hdecode.symm.trans decode_keyboardReady)
    cases hexec
    exact (inChar_position hchar).symm

/-- What the host can see it still sees when output is appended and the flush mark does not go back (R128; log 14). -/
theorem visibleOutput_append {s t : State} {more : List Byte} (hout : t.output = s.output ++ more)
    (hs : s.flushed ≤ s.output.length) (ht : s.flushed ≤ t.flushed) :
    ∃ shown, visibleOutput t = visibleOutput s ++ shown := by
  have hseen : visibleOutput s = t.output.take s.flushed := by
    rw [hout, List.take_append_of_le_length hs]
    rfl
  obtain ⟨shown, hshown⟩ := List.take_prefix_take_left (l := t.output) ht
  exact ⟨shown, by rw [hseen, hshown]; rfl⟩

/-- Settles O58: the frame of the fetch, then the frame of the instruction. -/
theorem stepOnlyAppendsOutputAndAdvancesInput : Obligations.StepOnlyAppendsOutputAndAdvancesInput := by
  intro s t hstep
  obtain ⟨-, w, s1, i, hfetch, -, hexec⟩ := step_next_exec hstep
  have heff := effect_of_exec hexec
  obtain ⟨-, hframe⟩ := fetch_frame hfetch
  have hfetched : s1.output = s.output := hframe.output
  have hmark : s1.flushed = s.flushed := hframe.flushed
  obtain ⟨heof, hended⟩ := heff.host_fields
  obtain ⟨more, hout⟩ := heff.output_append
  rw [hfetched] at hout
  refine ⟨⟨more, hout⟩, step_inputPos_cases hstep, heof.trans hframe.eofPolicy, hended.trans hframe.inputEnded,
    fun hs => visibleOutput_append hout hs ?_⟩
  obtain hkept | hall := heff.flushed_cases
  · rw [hkept, hmark]
  · rw [hall, hout, List.length_append]
    omega

end Sys2Proof.Machine
end

section
/-! `cond` commutes with every operation but BR (spec/10_state.md R29). -/

namespace Sys2Proof.Machine

/-- The state with the condition register replaced. -/
def withCond (c : BitVec 3) (s : State) : State := { s with cond := c }

/-- An outcome with its next state changed by `f`. -/
def mapNext (f : State → State) : Host.Outcome State Fault Refusal → Host.Outcome State Fault Refusal
  | .next t => .next (f t)
  | .fault r => .fault r
  | .refused r => .refused r

/-- An access with the state after it changed by `f`. -/
def mapAfter {α : Type} (f : State → State) : Access α → Access α
  | .ok (v, t) => .ok (v, f t)
  | .error r => .error r

theorem afterAccess_of_mapAfter {α : Type} {f g : State → State} {r r' : Access α}
    {k k' : α → State → Host.Outcome State Fault Refusal} (hr : r' = mapAfter f r)
    (hk : ∀ v t, k' v (f t) = mapNext g (k v t)) : afterAccess r' k' = mapNext g (afterAccess r k) := by
  rw [hr]
  rcases r with e | ⟨v, t⟩
  · rfl
  · exact hk v t

theorem inChar_withCond (c : BitVec 3) (s : State) : inChar (withCond c s) = mapAfter (withCond c) (inChar s) := by
  rcases h : inChar s with e | ⟨v, s1⟩
  · have hstuck := inChar_error.mp h
    exact inChar_error.mpr hstuck
  · refine inChar_ok.mpr ?_
    obtain ⟨ch, rest, hin, hv, rfl⟩ | ⟨hin, hended, ch, hhost, hv, rfl⟩ | ⟨hin, hended, heof, hv, rfl⟩ := inChar_ok.mp h
    · exact .inl ⟨ch, rest, hin, hv, rfl⟩
    · exact .inr (.inl ⟨hin, hended, ch, hhost, hv, rfl⟩)
    · exact .inr (.inr ⟨hin, hended, heof, hv, rfl⟩)

theorem memRead_withCond (c : BitVec 3) (a : Word) (s : State) :
    memRead a (withCond c s) = mapAfter (withCond c) (memRead a s) := by
  by_cases ha : a = 0xFE00#16
  · subst ha
    have hchar := inChar_withCond c s
    rcases h : inChar s with e | ⟨v, s1⟩ <;> rw [h] at hchar
    · rw [memRead_kbsr_of_error h]
      exact memRead_kbsr_of_error hchar
    · rw [memRead_kbsr_of_ok h]
      exact memRead_kbsr_of_ok hchar
  · rw [memRead_of_ne ha, memRead_of_ne ha]
    rfl

theorem writeResult_withCond (c : BitVec 3) (dr : Reg) (v : Word) (s : State) :
    writeResult dr v (withCond c s) = writeResult dr v s := rfl

theorem loadFrom_withCond (c : BitVec 3) (dr : Reg) (a : Word) (s : State) :
    loadFrom dr a (withCond c s) = mapNext id (loadFrom dr a s) :=
  afterAccess_of_mapAfter (memRead_withCond c a s) fun v t => congrArg _ (writeResult_withCond c dr v t)

theorem writeString_withCond (c : BitVec 3) (emit : Word → List Byte) (s : State) :
    writeString emit (withCond c s) = mapNext (withCond c) (writeString emit s) := by
  rcases h : stringLength s.mem Config.memCells (s.reg 0) with _ | n
  · rw [writeString_fault.mpr ⟨rfl, h⟩]
    exact writeString_fault.mpr ⟨rfl, h⟩
  · rw [writeString_next.mpr ⟨n, h, rfl⟩]
    exact writeString_next.mpr ⟨n, h, rfl⟩

/-- The next state when `cond` was `c` before, given the next state `t` with the old `cond`. -/
def afterCond (i : Instr) (c : BitVec 3) (t : State) : State := if setsFlags i = true then t else withCond c t

theorem exec_withCond {i : Instr} (c : BitVec 3) (s : State) (hi : ∀ nzp offset9, i ≠ .br nzp offset9) :
    exec i (withCond c s) = mapNext (afterCond i c) (exec i s) := by
  cases i with
  | br nzp offset9 => exact absurd rfl (hi nzp offset9)
  | ld dr offset9 => exact loadFrom_withCond c dr _ s
  | ldr dr base offset6 => exact loadFrom_withCond c dr _ s
  | ldi dr offset9 =>
    exact afterAccess_of_mapAfter (memRead_withCond c _ s) fun p t => loadFrom_withCond c dr p t
  | sti => exact afterAccess_of_mapAfter (memRead_withCond c _ s) fun _ _ => rfl
  | trapGetc | trapIn => exact afterAccess_of_mapAfter (inChar_withCond c s) fun _ _ => rfl
  | trapPuts => exact writeString_withCond c putsBytes s
  | trapPutsp => exact writeString_withCond c putspBytes s
  | _ => rfl

/-- Settles O51: executing commutes with replacing `cond`. -/
theorem condIsReadOnlyByBranch : Obligations.CondIsReadOnlyByBranch := by
  intro i s c hi
  have hcomm := exec_withCond c s hi
  exact ⟨fun t ht => hcomm.trans (congrArg _ ht), fun f hf => hcomm.trans (congrArg _ hf)⟩

end Sys2Proof.Machine
end

section
/-! A canonical memory is determined by what its cells read (spec/10_state.md R31; log 1). -/

namespace Sys2Proof.Machine

theorem Memory.read_of_lacks {m : Memory} {a : Nat} (h : m.lacks a) : m.read a = Memory.unlisted := by
  induction m with
  | nil => rfl
  | cons cell rest ih =>
    obtain ⟨hcell, hrest⟩ := List.forall_mem_cons.mp h
    rw [Memory.read_cons, if_neg hcell, ih hrest]

theorem Memory.read_of_mem {m : Memory} {cell : Nat × Word} (hm : m.Pairwise (fun x y => x.1 < y.1)) (h : cell ∈ m) :
    m.read cell.1 = cell.2 := by
  induction m with
  | nil => cases h
  | cons first rest ih =>
    obtain ⟨hfirst, hrest⟩ := List.pairwise_cons.mp hm
    rw [Memory.read_cons]
    obtain rfl | hmem := List.mem_cons.mp h
    · rw [if_pos rfl]
    · rw [if_neg (hfirst cell hmem).ne, ih hrest hmem]

/-- The entries of a canonical memory are its cells that are not zero, each with its address. -/
theorem Memory.mem_iff_read {m : Memory} (hm : m.wf) (a : Nat) (v : Word) :
    (a, v) ∈ m ↔ a < Config.memCells ∧ m.read a = v ∧ v ≠ Memory.unlisted := by
  obtain ⟨hsorted, hentries⟩ := hm
  constructor
  · intro h
    obtain ⟨ha, hv⟩ := hentries _ h
    exact ⟨ha, Memory.read_of_mem hsorted h, hv⟩
  · rintro ⟨-, rfl, hv⟩
    by_contra hnot
    refine hv (Memory.read_of_lacks fun cell hcell ha => hnot ?_)
    rw [← ha, Memory.read_of_mem hsorted hcell]
    exact hcell

/-- Settles O42: the two lists have the same entries, and each has them in rising order. -/
theorem canonicalMemoriesWithEqualCellsAreEqual : Obligations.CanonicalMemoriesWithEqualCellsAreEqual := by
  intro m m' hm hm' hread
  have hsame : ∀ cell, cell ∈ m ↔ cell ∈ m' := fun ⟨a, v⟩ => by
    rw [Memory.mem_iff_read hm, Memory.mem_iff_read hm']
    refine and_congr_right fun ha => ?_
    have hcell := hread (BitVec.ofNat 16 a)
    rw [BitVec.toNat_ofNat, Nat.mod_eq_of_lt (b := 2 ^ 16) ha] at hcell
    rw [hcell]
  have hnodup {l : Memory} (hl : l.Pairwise (fun x y => x.1 < y.1)) : l.Nodup :=
    hl.imp fun hlt heq => hlt.ne (congrArg Prod.fst heq)
  have hperm : m.Perm m' := (List.perm_ext_iff_of_nodup (hnodup hm.1) (hnodup hm'.1)).mpr hsame
  exact hperm.eq_of_pairwise (fun _ _ _ _ hlt hgt => absurd hlt hgt.asymm) hm.1 hm'.1

end Sys2Proof.Machine
end

section
/-! The obligations on reset, `setcc` and `InChar`. -/

namespace Sys2Proof.Machine

/-- Settles O1: each value is the one reset is defined with. -/
theorem resetStateValues : Obligations.ResetStateValues :=
  ⟨by decide, rfl, rfl, rfl, fun a => Memory.read_nil a.toNat, rfl, rfl, rfl, rfl, rfl, rfl⟩

theorem condOf_of_signBit {v : Word} (h : v.getLsbD 15 = true) : condOf v = 0b100#3 := if_pos h

theorem condOf_zero : condOf 0x0000#16 = 0b010#3 := by decide

theorem condOf_of_positive {v : Word} (hsign : v.getLsbD 15 = false) (hv : v ≠ 0x0000#16) : condOf v = 0b001#3 := by
  rw [condOf, hsign, if_neg Bool.false_ne_true, if_neg hv]

theorem setcc_eq {r : Reg} {s : State} {c : BitVec 3} (h : condOf (s.reg r) = c) : setcc r s = { s with cond := c } := by
  rw [setcc, h]

/-- Settles O8: `setcc` writes the flag of the register, whose three values are above. -/
theorem setccReportsSignZeroPositive : Obligations.SetccReportsSignZeroPositive :=
  ⟨fun _ _ hsign => setcc_eq (condOf_of_signBit hsign),
   fun _ _ hzero => setcc_eq (hzero.symm ▸ condOf_zero),
   fun _ _ hsign hv => setcc_eq (condOf_of_positive hsign hv),
   fun r v s => (writeResult_cond r v s).trans (condOf_eq_signFlag v)⟩

theorem inChar_of_supplied {s : State} {ch : Byte} {rest : List Byte} (h : s.input = ch :: rest) :
    inChar s = .ok (zext16 ch, { s with input := rest, inputPos := s.inputPos + 1 }) :=
  inChar_ok.mpr (.inl ⟨ch, rest, h, rfl, rfl⟩)

theorem inChar_of_none_supplied {s : State} (hin : s.input = []) (hended : s.inputEnded = false) :
    (∃ ch, Config.hostChar s.inputPos = some ch ∧ inChar s = .ok (zext16 ch, { s with inputPos := s.inputPos + 1 })) ∨
      (Config.hostChar s.inputPos = none ∧ inChar s = .error .inputUnanswered) := by
  rcases hhost : Config.hostChar s.inputPos with _ | ch
  · exact .inr ⟨rfl, inChar_error.mpr ⟨hin, .inr ⟨rfl, hended, hhost⟩⟩⟩
  · exact .inl ⟨ch, rfl, inChar_ok.mpr (.inr (.inl ⟨hin, hended, ch, hhost, rfl, rfl⟩))⟩

theorem inChar_of_ended_block {s : State} (hin : s.input = []) (hended : s.inputEnded = true)
    (heof : s.eofPolicy = .block) : inChar s = .error .inputExhausted :=
  inChar_error.mpr ⟨hin, .inl ⟨rfl, hended, heof⟩⟩

theorem inChar_of_ended_sentinel {s : State} (hin : s.input = []) (hended : s.inputEnded = true)
    (heof : s.eofPolicy = .sentinel) : inChar s = .ok (Config.eofSentinel, s) :=
  inChar_ok.mpr (.inr (.inr ⟨hin, hended, heof, rfl, rfl⟩))

theorem inChar_supplyInput_of_empty {s : State} (ch : Byte) (hin : s.input = []) :
    inChar (supplyInput ch s) = .ok (zext16 ch, { s with inputPos := s.inputPos + 1 }) := by
  have hnext : (supplyInput ch s).input = [ch] := by rw [supplyInput_input, hin, List.nil_append]
  rw [inChar_of_supplied hnext, ← hin]
  rfl

/-- Settles O38: `InChar` in each state of the input sequence. -/
theorem inCharDeliversNextCharacterOnce : Obligations.InCharDeliversNextCharacterOnce :=
  ⟨fun _ _ _ => inChar_of_supplied, fun _ => inChar_of_none_supplied, fun _ => inChar_of_ended_block,
   fun _ => inChar_of_ended_sentinel, fun _ => inChar_supplyInput_of_empty⟩

end Sys2Proof.Machine
end

section
/-! One step as its fetch and its instruction, and what each does at 0xFE00 and away from it (spec/20_memory.md R42, R43, R57). -/

namespace Sys2Proof.Machine

/-! ### One step -/

theorem step_of_fetch {s s1 : State} {w : Word} {i : Instr} (hrun : s.run = .running) (hfetch : fetch s = .ok (w, s1))
    (hdecode : decode w = .ok i) : step s = exec i s1 := by
  simp only [step, hrun, hfetch, afterAccess, hdecode]

theorem step_of_fetch_error {s : State} {f : Fault} (hrun : s.run = .running) (hfetch : fetch s = .error f) :
    step s = .fault f := by
  simp only [step, hrun, hfetch, afterAccess]

/-! ### Away from 0xFE00 -/

theorem loadFrom_of_ne {a : Word} (ha : a ≠ 0xFE00#16) (dr : Reg) (s : State) :
    loadFrom dr a s = .next (writeResult dr (s.cell a) s) :=
  loadFrom_next.mpr ⟨s.cell a, s, memRead_of_ne ha s, rfl⟩

theorem fetch_of_cell {s : State} {w : Word} (hpc : s.pc ≠ 0xFE00#16) (hcell : s.cell s.pc = w) :
    fetch s = .ok (w, setPc (s.pc + 1#16) s) :=
  fetch_ok.mpr ⟨s, hcell ▸ memRead_of_ne hpc s, rfl⟩

/-! ### At 0xFE00 -/

theorem memRead_kbsr_of_statusRead {s s1 : State} (h : keyboardStatusRead s = .ok s1) :
    memRead 0xFE00#16 s = .ok (s1.cell 0xFE00#16, s1) := by
  simp only [memRead, Config.kbsrAddr, ↓reduceIte, h]

theorem memRead_kbsr_of_statusRead_error {s : State} {f : Fault} (h : keyboardStatusRead s = .error f) :
    memRead 0xFE00#16 s = .error f := by
  simp only [memRead, Config.kbsrAddr, ↓reduceIte, h]

/-- A load from 0xFE00 gives 0x8000, which is negative (R43, R107). -/
theorem loadFrom_kbsr_of_ok {s s1 : State} {c : Word} (hchar : inChar s = .ok (c, s1)) (dr : Reg) :
    loadFrom dr 0xFE00#16 s =
      .next { keyboardLatched c s1 with regs := s.regs.set dr 0x8000#16, cond := 0b100#3 } := by
  refine loadFrom_next.mpr ⟨_, _, memRead_kbsr_of_ok hchar, ?_⟩
  rw [writeResult_eq, condOf_of_signBit (by decide), keyboardLatched_regs, (inChar_readFrame hchar).regs]

theorem loadFrom_kbsr_of_error {s : State} {f : Fault} (hchar : inChar s = .error f) (dr : Reg) :
    loadFrom dr 0xFE00#16 s = .fault f :=
  afterAccess_fault.mpr (.inl (memRead_kbsr_of_error hchar))

/-- The fetch at 0xFE00 delivers 0x8000, the word of RTI (D7). -/
theorem step_at_kbsr_of_ok {s s1 : State} {c : Word} (hrun : s.run = .running) (hpc : s.pc = 0xFE00#16)
    (hchar : inChar s = .ok (c, s1)) :
    step s = .next { keyboardLatched c s1 with pc := 0xFE01#16, run := .faulted (.unusedOpcode .rti) } := by
  have hfetch : fetch s = .ok (0x8000#16, setPc 0xFE01#16 (keyboardLatched c s1)) :=
    fetch_ok.mpr ⟨_, hpc ▸ memRead_kbsr_of_ok hchar, by rw [hpc]; rfl⟩
  exact step_of_fetch hrun hfetch decode_keyboardReady

theorem step_at_kbsr_of_error {s : State} {f : Fault} (hrun : s.run = .running) (hpc : s.pc = 0xFE00#16)
    (hchar : inChar s = .error f) : step s = .fault f :=
  step_of_fetch_error hrun (fetch_error.mpr (hpc ▸ memRead_kbsr_of_error hchar))

end Sys2Proof.Machine
end

section
/-! The obligations on `MemRead`, `MemWrite` and the keyboard cells. -/

namespace Sys2Proof.Machine

/-- Settles O36: the two branches of `memRead`. -/
theorem memReadIsPlainAwayFromKeyboardStatus : Obligations.MemReadIsPlainAwayFromKeyboardStatus :=
  ⟨fun _ s ha => memRead_of_ne ha s, memRead_of_ne (by decide), fun _ _ => memRead_kbsr_of_statusRead,
   fun _ _ => memRead_kbsr_of_statusRead_error⟩

theorem memWrite_cell_same (a v : Word) (s : State) : (memWrite a v s).cell a = v := by
  rw [memWrite_cell, if_pos rfl]

/-- Settles O40: read after write, in a state that differs in memory only. -/
theorem memWriteStoresOneCell : Obligations.MemWriteStoresOneCell :=
  fun a v s => ⟨memWrite_cell a v s, rfl⟩

/-- Settles O37: the read ends in `keyboardLatched`, whose cells and frame are known. -/
theorem keyboardStatusReadLatchesCharacter : Obligations.KeyboardStatusReadLatchesCharacter := by
  refine ⟨fun s s1 c hchar => ?_, fun s ch rest hin => ?_⟩
  · have hread := memRead_kbsr_of_ok hchar
    obtain ⟨hframe, hcells⟩ := memRead_frame hread
    exact ⟨keyboardLatched c s1, hread, by simp, by simp, fun a hkbsr hkbdr => hcells a fun _ => ⟨hkbsr, hkbdr⟩, hframe⟩
  · have hchar := inChar_of_supplied hin
    exact ⟨_, memRead_kbsr_of_ok hchar, by simp [zext16], rfl, rfl⟩

/-- Settles O45: the fetched word is RTI, whose fault follows. -/
theorem fetchAtKeyboardStatusFaultsAsRti : Obligations.FetchAtKeyboardStatusFaultsAsRti :=
  fun _ _ _ => step_at_kbsr_of_ok

/-- Settles O39: the end of input decides `InChar`, and each request follows it. -/
theorem endOfInputBlocksOrReturnsSentinel : Obligations.EndOfInputBlocksOrReturnsSentinel := by
  refine ⟨fun s hin hended heof => ?block, fun s hin hended heof => ?sentinel⟩
  case block =>
    have hchar := inChar_of_ended_block hin hended heof
    refine ⟨afterAccess_fault.mpr (.inl hchar), afterAccess_fault.mpr (.inl hchar), memRead_kbsr_of_error hchar,
      fun dr offset9 hea => ?_, fun hrun hpc => step_at_kbsr_of_error hrun hpc hchar⟩
    exact (congrArg (loadFrom dr · s) hea).trans (loadFrom_kbsr_of_error hchar dr)
  case sentinel =>
    have hchar := inChar_of_ended_sentinel hin hended heof
    refine ⟨afterAccess_next.mpr ⟨_, s, hchar, rfl⟩, afterAccess_next.mpr ⟨_, s, hchar, rfl⟩,
      ⟨_, memRead_kbsr_of_ok hchar, by simp [Config.eofSentinel], hin, rfl⟩, fun dr offset9 hea => ?_,
      fun hrun hpc => step_at_kbsr_of_ok hrun hpc hchar⟩
    exact (congrArg (loadFrom dr · s) hea).trans (loadFrom_kbsr_of_ok hchar dr)

/-- Settles O41: away from 0xFE00 a load and a fetch both read the stored cell. -/
theorem storedWordIsLoadedAndFetched : Obligations.StoredWordIsLoadedAndFetched := by
  intro sr dr offset9 s a hea ha
  have hstored := memWrite_cell_same a (s.reg sr) s
  have hload := loadFrom_of_ne ha dr (memWrite a (s.reg sr) s)
  refine ⟨memWrite a (s.reg sr) s, hea ▸ rfl, ⟨_, (congrArg (loadFrom dr · _) hea.symm).trans hload, by simp⟩, ?_⟩
  exact fetch_of_cell ha hstored

end Sys2Proof.Machine
end

section
/-! Memory after an instruction (spec/20_memory.md R48, R50). -/

namespace Sys2Proof.Machine

theorem inChar_cell {s s1 : State} {c : Word} (h : inChar s = .ok (c, s1)) (a : Word) : s1.cell a = s.cell a := by
  simp only [State.cell, inChar_mem h]

theorem ReadsData.cell {i : Instr} {s s1 : State} {a : Word} (h : ReadsData i s s1)
    (ha : asksForInput i s → a ≠ 0xFE00#16 ∧ a ≠ 0xFE02#16) : s1.cell a = s.cell a := by
  obtain ⟨-, rfl⟩ | ⟨hask, c, s0, hchar, rfl⟩ := h
  · rfl
  · exact (memRead_frame (memRead_kbsr_of_ok hchar)).2 a fun _ => ha hask

/-- GETC and IN are the only instructions that ask for input without a read of 0xFE00, and they neither set flags nor store. -/
theorem kbsr_mem_dataReads {i : Instr} {s : State} (h : asksForInput i s)
    (hi : setsFlags i = true ∨ storeAddress i s ≠ none) : 0xFE00#16 ∈ dataReads i s := by
  obtain rfl | rfl | hmem := h
  · simp [setsFlags, storeAddress] at hi
  · simp [setsFlags, storeAddress] at hi
  · exact hmem

theorem Effect.cell_of_not_stored {i : Instr} {s t : State} {a : Word} (h : Effect s i t)
    (hstore : storeAddress i s ≠ some a) (ha : 0xFE00#16 ∈ dataReads i s → a ≠ 0xFE00#16 ∧ a ≠ 0xFE02#16) :
    t.cell a = s.cell a := by
  cases h with
  | result hflags _ hreads => exact hreads.cell fun hask => ha (kbsr_mem_dataReads hask (.inl hflags))
  | store _ hstored hreads =>
    rw [hstored, ne_eq, Option.some.injEq] at hstore
    rw [memWrite_cell, if_neg (Ne.symm hstore)]
    exact hreads.cell fun hask => ha (kbsr_mem_dataReads hask (.inr (hstored ▸ Option.some_ne_none _)))
  | getc hchar | inEcho hchar => simp [inChar_cell hchar]
  | _ => rfl

/-- Settles O52: the frame of memory at `exec`, and each store's own cell. -/
theorem onlyStoredAndKeyboardCellsChange : Obligations.OnlyStoredAndKeyboardCellsChange := by
  refine ⟨fun i s t a hexec hstore ha => (effect_of_exec hexec).cell_of_not_stored hstore ha,
    fun i s t a sr hexec hstore hi => ?_⟩
  obtain ⟨o, rfl⟩ | ⟨o, rfl⟩ | ⟨b, o, rfl⟩ := hi
  case inl | inr.inr =>
    cases hexec
    cases hstore
    exact memWrite_cell_same _ _ s
  case inr.inl =>
    obtain ⟨p, s1, hread, hexec⟩ := afterAccess_next.mp hexec
    cases hexec
    obtain rfl : p = a := Option.some.inj ((pointerAt_of_memRead hread).symm.trans hstore)
    rw [memWrite_cell_same, (memRead_readFrame hread).reg]

end Sys2Proof.Machine
end

section
/-! Why a step in RUNNING can give no next state (spec/20_memory.md R44; spec/43_trap.md R123, R125). -/

namespace Sys2Proof.Machine

/-! ### The endless string -/

theorem stringLength_none {m : Memory} {fuel : Nat} {a : Word} :
    stringLength m fuel a = none ↔ ∀ k < fuel, m.read (a + BitVec.ofNat 16 k).toNat ≠ 0x0000#16 := by
  constructor
  · intro hnone k hk hzero
    have hex : ∃ k, m.read (a + BitVec.ofNat 16 k).toNat = 0x0000#16 := ⟨k, hzero⟩
    have hfirst : stringLength m fuel a = some (Nat.find hex) :=
      stringLength_some.mpr ⟨(Nat.find_min' hex hzero).trans_lt hk, fun _ => Nat.find_min hex, Nat.find_spec hex⟩
    cases hnone.symm.trans hfirst
  · intro hnonzero
    refine Option.eq_none_iff_forall_ne_some.mpr fun n hsome => ?_
    obtain ⟨hn, -, hzero⟩ := stringLength_some.mp hsome
    exact hnonzero n hn hzero

/-- From any start the string wraps through all 65536 cells (D13). -/
theorem stringLength_memCells_none {s : State} {a : Word} :
    stringLength s.mem Config.memCells a = none ↔ ∀ q, s.cell q ≠ 0x0000#16 := by
  rw [stringLength_none]
  refine ⟨fun h q => ?_, fun h k _ => h _⟩
  have hq : a + BitVec.ofNat 16 (q - a).toNat = q := by
    rw [BitVec.ofNat_toNat, BitVec.setWidth_eq, BitVec.add_comm, BitVec.sub_add_cancel]
  exact hq ▸ h (q - a).toNat (q - a).isLt

/-! ### The outcomes an instruction can have -/

/-- A next state, or one of the two ways not to complete in `s`: a character that `InChar` does not deliver, or a string with
no zero cell. -/
inductive CompletesOrWaits (s : State) : Host.Outcome State Fault Refusal → Prop where
  | next (t : State) : CompletesOrWaits s (.next t)
  | noCharacter {f : Fault} (hchar : inChar s = .error f) : CompletesOrWaits s (.fault f)
  | noZeroCell (hcells : ∀ a, s.cell a ≠ 0x0000#16) : CompletesOrWaits s (.fault .endlessString)

theorem completesOrWaits_inChar (s : State) (k : Word → State → State) :
    CompletesOrWaits s (afterAccess (inChar s) fun c s1 => .next (k c s1)) := by
  rcases h : inChar s with f | ⟨c, s1⟩
  · exact .noCharacter h
  · exact .next _

theorem completesOrWaits_memRead {a : Word} {s : State} {k : Word → State → Host.Outcome State Fault Refusal}
    (hk : ∀ v s1, memRead a s = .ok (v, s1) → CompletesOrWaits s (k v s1)) :
    CompletesOrWaits s (afterAccess (memRead a s) k) := by
  rcases h : memRead a s with f | ⟨v, s1⟩
  · exact .noCharacter (memRead_error.mp h).2
  · exact hk v s1 h

theorem completesOrWaits_loadFrom (dr : Reg) (a : Word) (s : State) : CompletesOrWaits s (loadFrom dr a s) :=
  completesOrWaits_memRead fun _ _ _ => .next _

theorem completesOrWaits_writeString (emit : Word → List Byte) (s : State) :
    CompletesOrWaits s (writeString emit s) := by
  rcases h : stringLength s.mem Config.memCells (s.reg 0) with _ | n
  · rw [writeString_fault.mpr ⟨rfl, h⟩]
    exact .noZeroCell (stringLength_memCells_none.mp h)
  · rw [writeString_next.mpr ⟨n, h, rfl⟩]
    exact .next _

/-- No instruction is refused, and only those that read 0xFE00 or a string, GETC and IN can fail to complete. -/
theorem exec_completesOrWaits (i : Instr) (s : State) : CompletesOrWaits s (exec i s) := by
  cases i with
  | ld dr | ldr dr => exact completesOrWaits_loadFrom dr _ s
  | ldi dr =>
    refine completesOrWaits_memRead fun p s1 hp => ?_
    obtain ⟨-, -, rfl⟩ | ⟨-, rfl, -⟩ := memRead_ok.mp hp
    · exact completesOrWaits_loadFrom dr p s1
    · rw [loadFrom_of_ne (by decide)]
      exact .next _
  | sti => exact completesOrWaits_memRead fun _ _ _ => .next _
  | trapGetc | trapIn => exact completesOrWaits_inChar s _
  | trapPuts => exact completesOrWaits_writeString putsBytes s
  | trapPutsp => exact completesOrWaits_writeString putspBytes s
  | _ => exact .next _

/-- `InChar` and the cells do not depend on pc. -/
theorem CompletesOrWaits.of_setPc {s : State} {pc : Word} {o : Host.Outcome State Fault Refusal}
    (h : CompletesOrWaits (setPc pc s) o) : CompletesOrWaits s o := by
  cases h with
  | next t => exact .next t
  | noCharacter hchar =>
    have hwaits := inChar_error.mp hchar
    exact .noCharacter (inChar_error.mpr hwaits)
  | noZeroCell hcells => exact .noZeroCell hcells

theorem step_completesOrWaits {s : State} (hrun : s.run = .running) : CompletesOrWaits s (step s) := by
  by_cases hpc : s.pc = 0xFE00#16
  · rcases hchar : inChar s with f | ⟨c, s1⟩
    · rw [step_at_kbsr_of_error hrun hpc hchar]
      exact .noCharacter hchar
    · rw [step_at_kbsr_of_ok hrun hpc hchar]
      exact .next _
  · obtain ⟨i, hdecode⟩ := decode_ok (s.cell s.pc)
    rw [step_of_fetch hrun (fetch_of_cell hpc rfl) hdecode]
    exact (exec_completesOrWaits i _).of_setPc

/-- Settles O48: a step that does not complete waits for a character, for one of the two reasons of `InChar`, or for a zero
cell. -/
theorem runningStepStopsOnlyForInputOrEndlessString : Obligations.RunningStepStopsOnlyForInputOrEndlessString := by
  intro s hrun hstuck
  generalize ho : step s = o at hstuck
  cases ho ▸ step_completesOrWaits hrun with
  | next t => exact absurd rfl (hstuck t)
  | noCharacter hchar =>
    obtain ⟨hin, ⟨rfl, hended, heof⟩ | ⟨rfl, hended, hhost⟩⟩ := inChar_error.mp hchar
    · exact .inl ⟨rfl, hin, hended, heof⟩
    · exact .inr (.inl ⟨rfl, hin, hended, hhost⟩)
  | noZeroCell hcells => exact .inr (.inr ⟨rfl, hcells⟩)

end Sys2Proof.Machine
end

section
/-! Where the decoder reads a word: the fields of spec/30_encoding.md R62 against the mask of its used bits (R63, R65). -/

namespace Sys2Proof

/-! ### Bits of a word -/

theorem extractLsb'_one_eq_iff {w : Word} {k : Nat} {b : Bool} :
    w.extractLsb' k 1 = BitVec.ofBool b ↔ w.getLsbD k = b := by
  have hbit : w.extractLsb' k 1 = BitVec.ofBool (w.getLsbD k) := by
    refine BitVec.eq_of_getLsbD_eq fun j hj => ?_
    obtain rfl : j = 0 := by omega
    simp
  rw [hbit]
  exact ⟨fun h => by simpa using congrArg (·.getLsbD 0) h, congrArg BitVec.ofBool⟩

theorem extractLsb'_eq_iff {w w' : Word} {start len : Nat} : w.extractLsb' start len = w'.extractLsb' start len ↔
    ∀ k : Fin 16, start ≤ k → k < start + len → w.getLsbD k = w'.getLsbD k := by
  constructor
  · intro h k hlo hhi
    have hlen : k - start < len := by omega
    simpa [BitVec.getLsbD_extractLsb', hlen, Nat.add_sub_cancel' hlo] using congrArg (·.getLsbD (k - start)) h
  · intro h
    refine BitVec.eq_of_getLsbD_eq fun j hj => ?_
    rw [BitVec.getLsbD_extractLsb', BitVec.getLsbD_extractLsb']
    by_cases hk : start + j < 16
    · rw [h ⟨start + j, hk⟩ (Nat.le_add_right start j) (Nat.add_lt_add_left hj start)]
    · rw [BitVec.getLsbD_of_ge w _ (by omega), BitVec.getLsbD_of_ge w' _ (by omega)]

theorem and_mask_eq_iff {w w' mask : Word} :
    w &&& mask = w' &&& mask ↔ ∀ k : Fin 16, mask.getLsbD k = true → w.getLsbD k = w'.getLsbD k := by
  constructor
  · intro h k hk
    have hbit : (w &&& mask).getLsbD k = (w' &&& mask).getLsbD k := by rw [h]
    rwa [BitVec.getLsbD_and, BitVec.getLsbD_and, hk, Bool.and_true, Bool.and_true] at hbit
  · intro h
    refine BitVec.eq_of_getLsbD_eq fun k hk => ?_
    rw [BitVec.getLsbD_and, BitVec.getLsbD_and]
    rcases hmask : mask.getLsbD k with _ | _
    · rw [Bool.and_false, Bool.and_false]
    · rw [h ⟨k, hk⟩ hmask]

/-! ### The fields of a row -/

/-- The start and the length of each field of an instruction's row: the opcode, the flag or selector that tells the row from
its neighbours, and the operands. -/
def usedFields : Instr → List (Nat × Nat)
  | .addReg _ _ _ | .andReg _ _ _ => [(12, 4), (9, 3), (6, 3), (5, 1), (0, 3)]
  | .addImm _ _ _ | .andImm _ _ _ => [(12, 4), (9, 3), (6, 3), (5, 1), (0, 5)]
  | .not _ _ => [(12, 4), (9, 3), (6, 3)]
  | .br _ _ | .ld _ _ | .ldi _ _ | .lea _ _ | .st _ _ | .sti _ _ => [(12, 4), (9, 3), (0, 9)]
  | .ret | .jmp _ => [(12, 4), (6, 3)]
  | .jsr _ => [(12, 4), (11, 1), (0, 11)]
  | .jsrr _ => [(12, 4), (11, 1), (6, 3)]
  | .ldr _ _ _ | .str _ _ _ => [(12, 4), (9, 3), (6, 3), (0, 6)]
  | .trapGetc | .trapOut | .trapPuts | .trapIn | .trapPutsp | .trapHalt | .trapUnrecognized _ => [(12, 4), (0, 8)]
  | .rti | .res => [(12, 4)]

/-- The mask marks the bits of the fields and no others. -/
theorem usedBits_iff (i : Instr) (k : Fin 16) :
    (usedBits i).getLsbD k = true ↔ ∃ f ∈ usedFields i, f.1 ≤ k ∧ k < f.1 + f.2 := by
  revert k
  cases i <;> simp only [usedBits, usedFields] <;> decide

/-- Two words hold the same values in the fields of the instruction's row. -/
def SameFields (i : Instr) (w w' : Word) : Prop :=
  ∀ f ∈ usedFields i, w.extractLsb' f.1 f.2 = w'.extractLsb' f.1 f.2

theorem sameFields_iff_usedBits {i : Instr} {w w' : Word} :
    SameFields i w w' ↔ w &&& usedBits i = w' &&& usedBits i := by
  simp only [SameFields, extractLsb'_eq_iff, and_mask_eq_iff, usedBits_iff]
  exact ⟨fun h k ⟨f, hf, hlo, hhi⟩ => h f hf k hlo hhi, fun h f hf k hlo hhi => h k ⟨f, hf, hlo, hhi⟩⟩

end Sys2Proof
end

section
/-! The rows of spec/30_encoding.md R63 as conditions on a word, which the encoder meets and the decoder tests. -/

namespace Sys2Proof

/-- The word lies in the instruction's row, and its fields hold the operands. -/
def InRow (w : Word) : Instr → Prop
  | .addReg dr sr1 sr2 =>
    opcodeField w = 0x1#4 ∧ drField w = dr ∧ sr1Field w = sr1 ∧ immFlag w = false ∧ sr2Field w = sr2
  | .addImm dr sr1 imm5 =>
    opcodeField w = 0x1#4 ∧ drField w = dr ∧ sr1Field w = sr1 ∧ immFlag w = true ∧ imm5Field w = imm5
  | .andReg dr sr1 sr2 =>
    opcodeField w = 0x5#4 ∧ drField w = dr ∧ sr1Field w = sr1 ∧ immFlag w = false ∧ sr2Field w = sr2
  | .andImm dr sr1 imm5 =>
    opcodeField w = 0x5#4 ∧ drField w = dr ∧ sr1Field w = sr1 ∧ immFlag w = true ∧ imm5Field w = imm5
  | .not dr sr => opcodeField w = 0x9#4 ∧ drField w = dr ∧ sr1Field w = sr
  | .br nzp offset9 => opcodeField w = 0x0#4 ∧ nzpField w = nzp ∧ offset9Field w = offset9
  | .ret => opcodeField w = 0xC#4 ∧ sr1Field w = 7
  | .jmp base => opcodeField w = 0xC#4 ∧ sr1Field w = base
  | .jsr offset11 => opcodeField w = 0x4#4 ∧ longFlag w = true ∧ offset11Field w = offset11
  | .jsrr base => opcodeField w = 0x4#4 ∧ longFlag w = false ∧ sr1Field w = base
  | .ld dr offset9 => opcodeField w = 0x2#4 ∧ drField w = dr ∧ offset9Field w = offset9
  | .ldi dr offset9 => opcodeField w = 0xA#4 ∧ drField w = dr ∧ offset9Field w = offset9
  | .ldr dr base offset6 => opcodeField w = 0x6#4 ∧ drField w = dr ∧ sr1Field w = base ∧ offset6Field w = offset6
  | .lea dr offset9 => opcodeField w = 0xE#4 ∧ drField w = dr ∧ offset9Field w = offset9
  | .st sr offset9 => opcodeField w = 0x3#4 ∧ drField w = sr ∧ offset9Field w = offset9
  | .sti sr offset9 => opcodeField w = 0xB#4 ∧ drField w = sr ∧ offset9Field w = offset9
  | .str sr base offset6 => opcodeField w = 0x7#4 ∧ drField w = sr ∧ sr1Field w = base ∧ offset6Field w = offset6
  | .trapGetc => opcodeField w = 0xF#4 ∧ trapvectField w = 0x20#8
  | .trapOut => opcodeField w = 0xF#4 ∧ trapvectField w = 0x21#8
  | .trapPuts => opcodeField w = 0xF#4 ∧ trapvectField w = 0x22#8
  | .trapIn => opcodeField w = 0xF#4 ∧ trapvectField w = 0x23#8
  | .trapPutsp => opcodeField w = 0xF#4 ∧ trapvectField w = 0x24#8
  | .trapHalt => opcodeField w = 0xF#4 ∧ trapvectField w = 0x25#8
  | .trapUnrecognized v => opcodeField w = 0xF#4 ∧ trapvectField w = v
  | .rti => opcodeField w = 0x8#4
  | .res => opcodeField w = 0xD#4

/-! ### The encoder -/

theorem regOfBits_eq_iff {b : BitVec 3} {r : Reg} : regOfBits b = r ↔ b = regBits r :=
  ⟨fun h => h ▸ (regBits_regOfBits b).symm, fun h => h ▸ regOfBits_regBits r⟩

theorem regBits_seven : regBits 7 = 7#3 := rfl

theorem immFlag_eq_iff {w : Word} {b : Bool} : immFlag w = b ↔ w.extractLsb' 5 1 = BitVec.ofBool b :=
  extractLsb'_one_eq_iff.symm

theorem longFlag_eq_iff {w : Word} {b : Bool} : longFlag w = b ↔ w.extractLsb' 11 1 = BitVec.ofBool b :=
  extractLsb'_one_eq_iff.symm

/-- Row by row: each field of the encoded word is the part of the concatenation that holds it. The widths of the parts stay
written as sums (`-Nat.reduceAdd`), so that the library's lemmas on a field of a concatenation apply. -/
theorem inRow_iff_sameFields_encode {w : Word} {i : Instr} : InRow w i ↔ SameFields i w (encode i) := by
  cases i <;>
    simp [InRow, SameFields, usedFields, encode, opcodeField, drField, sr1Field, sr2Field, imm5Field, offset6Field,
      offset9Field, offset11Field, nzpField, trapvectField, immFlag_eq_iff, longFlag_eq_iff, regOfBits_eq_iff,
      regBits_seven, BitVec.extractLsb'_append_eq_of_le, BitVec.extractLsb'_append_eq_of_add_le, -Nat.reduceAdd]

/-! ### The decoder -/

theorem wellFormed_decodeTrap (v : BitVec 8) : (decodeTrap v).wellFormed = true := by
  revert v; decide

theorem inRow_decodeTrap {w : Word} (hop : opcodeField w = 0xF#4) : InRow w (decodeTrap (trapvectField w)) := by
  unfold decodeTrap
  split_ifs with hgetc hout hputs hin hputsp hhalt
  · exact ⟨hop, hgetc⟩
  · exact ⟨hop, hout⟩
  · exact ⟨hop, hputs⟩
  · exact ⟨hop, hin⟩
  · exact ⟨hop, hputsp⟩
  · exact ⟨hop, hhalt⟩
  · exact ⟨hop, rfl⟩

/-- The decoder answers with a row that its word lies in; where rows overlap, `wellFormed` says which (R68). -/
theorem inRow_of_decode {w : Word} {i : Instr} (h : decode w = .ok i) : i.wellFormed = true ∧ InRow w i := by
  unfold decode at h
  split at h
  case h_2 hop | h_6 hop =>
    split_ifs at h with himm
    · cases h
      exact ⟨rfl, hop, rfl, rfl, himm, rfl⟩
    · cases h
      exact ⟨rfl, hop, rfl, rfl, Bool.eq_false_of_not_eq_true himm, rfl⟩
  case h_5 hop =>
    split_ifs at h with hlong
    · cases h
      exact ⟨rfl, hop, hlong, rfl⟩
    · cases h
      exact ⟨rfl, hop, Bool.eq_false_of_not_eq_true hlong, rfl⟩
  case h_13 hop =>
    split_ifs at h with hbase
    · cases h
      exact ⟨rfl, hop, hbase⟩
    · cases h
      exact ⟨bne_iff_ne.mpr hbase, hop, rfl⟩
  case h_16 hop =>
    cases h
    exact ⟨wellFormed_decodeTrap _, inRow_decodeTrap hop⟩
  case h_17 => cases h
  all_goals
    cases h
    simpa only [InRow, Instr.wellFormed, true_and, and_true]

theorem decode_of_inRow {w : Word} {i : Instr} (hi : i.wellFormed = true) (h : InRow w i) : decode w = .ok i := by
  cases i
  case jmp base =>
    obtain ⟨hop, rfl⟩ := h
    have hbase : sr1Field w ≠ 7 := bne_iff_ne.mp hi
    simp only [decode, hop, if_neg hbase]
  case trapUnrecognized v =>
    obtain ⟨hop, rfl⟩ := h
    have hservice : isServiceSelector (trapvectField w) = false := by simpa [Instr.wellFormed] using hi
    simp only [decode, hop, decodeTrap_of_not_service hservice]
  all_goals
    simp only [InRow] at h
    simp [decode, decodeTrap, h]

/-- What a word decodes to, by its row. -/
theorem decode_eq_ok_iff {w : Word} {i : Instr} : decode w = .ok i ↔ i.wellFormed = true ∧ InRow w i :=
  ⟨inRow_of_decode, fun ⟨hi, h⟩ => decode_of_inRow hi h⟩

/-- What a word decodes to, by the encoder and the mask. -/
theorem decode_eq_ok_iff_encode {w : Word} {i : Instr} :
    decode w = .ok i ↔ i.wellFormed = true ∧ w &&& usedBits i = encode i &&& usedBits i := by
  rw [decode_eq_ok_iff, inRow_iff_sameFields_encode, sameFields_iff_usedBits]

end Sys2Proof
end

section
/-! The obligations on the decoder, the encoder and the cycle of a step (spec/30_encoding.md). -/

namespace Sys2Proof.Machine

/-- Settles O3: an encoding agrees with itself on every bit. -/
theorem decodeEncodeRoundTrip : Obligations.DecodeEncodeRoundTrip :=
  fun _ hi => decode_eq_ok_iff_encode.mpr ⟨hi, rfl⟩

/-- Settles O4: the decoder is total, and its answer has the word's used bits. -/
theorem everyWordDecodesToItsRow : Obligations.EveryWordDecodesToItsRow := by
  intro w
  obtain ⟨i, hi⟩ := decode_ok w
  exact ⟨i, hi, decode_eq_ok_iff_encode.mp hi⟩

/-- Settles O5: the used bits of the word decide the answer. -/
theorem ignoredBitsHaveNoEffect : Obligations.IgnoredBitsHaveNoEffect := by
  intro w w' i h hsame
  obtain ⟨hi, hrow⟩ := decode_eq_ok_iff_encode.mp h
  exact decode_eq_ok_iff_encode.mpr ⟨hi, hsame.symm.trans hrow⟩

/-- Settles O6: the decoder evaluates on each word. -/
theorem specExampleWordsDecode : Obligations.SpecExampleWordsDecode := by
  unfold Obligations.SpecExampleWordsDecode
  decide

/-- Settles O43: the step of a completed fetch, of a fetch away from 0xFE00 and of a fetch that does not complete; a step
with a next state is a RUNNING one. -/
theorem stepRunsTheDecodedInstruction : Obligations.StepRunsTheDecodedInstruction :=
  ⟨fun _ s1 _ _ hrun hread => step_of_fetch hrun (fetch_ok.mpr ⟨s1, hread, rfl⟩),
   fun _ _ hrun hpc => step_of_fetch hrun (fetch_of_cell hpc rfl),
   fun _ _ hrun hread => step_of_fetch_error hrun (fetch_error.mpr hread),
   fun _ _ hrun hnext => hrun (step_next_exec hnext).1⟩

end Sys2Proof.Machine
end

section
/-! The fields of the layouts of ADD, AND and NOT, with any value in the ignored bits (spec/40_operate.md R80 to R84). -/

namespace Sys2Proof

/-- The layout that ADD and AND share in register mode (R80, R82). -/
theorem fields_registerMode (op : BitVec 4) (dr sr1 sr2 : Reg) (x : BitVec 2) :
    let w : Word := op ++ regBits dr ++ regBits sr1 ++ 0b0#1 ++ x ++ regBits sr2
    opcodeField w = op ∧ drField w = dr ∧ sr1Field w = sr1 ∧ immFlag w = false ∧ sr2Field w = sr2 := by
  simp [opcodeField, drField, sr1Field, sr2Field, immFlag_eq_iff,
    BitVec.extractLsb'_append_eq_of_le, BitVec.extractLsb'_append_eq_of_add_le, -Nat.reduceAdd]

/-- The layout of NOT: the six bits below the source register are free (R84). -/
theorem fields_belowSource (op : BitVec 4) (dr sr : Reg) (x : BitVec 6) :
    let w : Word := op ++ regBits dr ++ regBits sr ++ x
    opcodeField w = op ∧ drField w = dr ∧ sr1Field w = sr := by
  simp [opcodeField, drField, sr1Field, BitVec.extractLsb'_append_eq_of_le, BitVec.extractLsb'_append_eq_of_add_le,
    -Nat.reduceAdd]

end Sys2Proof
end

section
/-! What ADD, AND and NOT leave, and the arithmetic of their results (spec/40_operate.md R80 to R85). -/

namespace Sys2Proof.Machine

/-! ### The dispatch -/

theorem exec_addReg (dr sr1 sr2 : Reg) (s : State) :
    exec (.addReg dr sr1 sr2) s = .next (writeResult dr (s.reg sr1 + s.reg sr2) s) := rfl

theorem exec_addImm (dr sr1 : Reg) (imm5 : BitVec 5) (s : State) :
    exec (.addImm dr sr1 imm5) s = .next (writeResult dr (s.reg sr1 + sext imm5) s) := rfl

theorem exec_andReg (dr sr1 sr2 : Reg) (s : State) :
    exec (.andReg dr sr1 sr2) s = .next (writeResult dr (s.reg sr1 &&& s.reg sr2) s) := rfl

theorem exec_andImm (dr sr1 : Reg) (imm5 : BitVec 5) (s : State) :
    exec (.andImm dr sr1 imm5) s = .next (writeResult dr (s.reg sr1 &&& sext imm5) s) := rfl

theorem exec_not (dr sr : Reg) (s : State) : exec (.not dr sr) s = .next (writeResult dr (~~~ s.reg sr) s) := rfl

/-! ### The result and its flag -/

/-- The flag of a result by its sign, which is how the rules state it (R15, R27). -/
theorem writeResult_eq_signFlag (dr : Reg) (v : Word) (s : State) :
    writeResult dr v s = { s with regs := s.regs.set dr v, cond := signFlag v } := by
  rw [writeResult_eq, condOf_eq_signFlag]

theorem writeResult_reg_same (dr : Reg) (v : Word) (s : State) : (writeResult dr v s).reg dr = v := by
  rw [writeResult_reg, if_pos rfl]

/-! ### Words as numbers and as bits -/

theorem sext_eq_ofInt {n : Nat} (f : BitVec n) : sext f = BitVec.ofInt 16 f.toInt := rfl

/-- From its sign bit on, the extension repeats the sign bit. -/
theorem sext_getLsbD {n : Nat} (f : BitVec (n + 1)) {k : Nat} (hk : k < 16) :
    (sext f).getLsbD k = f.getLsbD (min k n) := by
  rw [sext, BitVec.getLsbD_signExtend, BitVec.msb_eq_getLsbD_last, Nat.add_sub_cancel]
  by_cases hkn : k < n + 1
  · simp [hk, hkn, Nat.min_eq_left (Nat.le_of_lt_succ hkn)]
  · simp [hk, hkn, Nat.min_eq_right (show n ≤ k by omega)]

/-- Two's complement: the complement plus one is the negation. -/
theorem not_add_sext_one (v : Word) : ~~~ v + sext 1#5 = 0x0000#16 - v := by
  rw [BitVec.zero_sub, BitVec.neg_eq_not_add]
  rfl

end Sys2Proof.Machine
end

section
/-! The obligations on ADD, AND and NOT (spec/40_operate.md). -/

namespace Sys2Proof.Machine

/-- Settles O9: the layout lies in ADD's row, and ADD ends in `writeResult`. -/
theorem addRegisterWritesSumAndFlag : Obligations.AddRegisterWritesSumAndFlag :=
  ⟨fun dr sr1 sr2 x => decode_of_inRow rfl (fields_registerMode 0b0001#4 dr sr1 sr2 x),
   fun dr sr1 sr2 s => by rw [exec_addReg, writeResult_eq_signFlag]⟩

/-- Settles O10: the layout has no ignored bits, so it is the encoding; the modes differ in where the operand comes from. -/
theorem addImmediateWritesSumAndFlag : Obligations.AddImmediateWritesSumAndFlag :=
  ⟨fun dr sr1 imm5 => decodeEncodeRoundTrip (.addImm dr sr1 imm5) rfl,
   fun dr sr1 imm5 s => by rw [exec_addImm, writeResult_eq_signFlag, sext_eq_ofInt],
   fun dr sr1 sr2 imm5 s hsame => by rw [exec_addReg, exec_addImm, hsame, sext_eq_ofInt]⟩

/-- Settles O11: the layout lies in AND's row, and AND ends in `writeResult`. -/
theorem andRegisterWritesConjunctionAndFlag : Obligations.AndRegisterWritesConjunctionAndFlag :=
  ⟨fun dr sr1 sr2 x => decode_of_inRow rfl (fields_registerMode 0b0101#4 dr sr1 sr2 x),
   fun dr sr1 sr2 s => by rw [exec_andReg, writeResult_eq_signFlag]⟩

/-- Settles O12: 0 and -1 extend to the word of zeros and the word of ones. -/
theorem andImmediateWritesConjunctionAndFlag : Obligations.AndImmediateWritesConjunctionAndFlag := by
  have hzero : sext 0#5 = 0x0000#16 := by decide
  have hones : sext 0b11111#5 = BitVec.allOnes 16 := by decide
  refine ⟨fun dr sr1 imm5 => decodeEncodeRoundTrip (.andImm dr sr1 imm5) rfl, fun dr sr1 imm5 s => ?_,
    fun dr sr1 s => ⟨?_, ?_⟩⟩
  · rw [exec_andImm, writeResult_eq_signFlag, sext_eq_ofInt]
  · rw [exec_andImm, hzero, BitVec.and_zero, writeResult_eq, condOf_zero]
  · rw [exec_andImm, hones, BitVec.and_allOnes, writeResult_eq_signFlag]

/-- Settles O13: NOT's row reads no bit below the source register. -/
theorem notWritesComplementAndFlag : Obligations.NotWritesComplementAndFlag :=
  ⟨fun dr sr x => decode_of_inRow rfl (fields_belowSource 0b1001#4 dr sr x),
   fun dr sr s => by rw [exec_not, writeResult_eq_signFlag]⟩

/-- Settles O14: the destination holds the result, whose value and bits the facts on words give. -/
theorem aluIsArithmeticModulo65536 : Obligations.AluIsArithmeticModulo65536 := by
  refine ⟨fun dr sr1 sr2 s => ⟨_, exec_addReg dr sr1 sr2 s, writeResult_run _ _ s, ?_, ?_⟩,
    fun dr sr1 imm5 s => ⟨_, exec_addImm dr sr1 imm5 s, writeResult_run _ _ s, ?_⟩,
    fun dr sr1 sr2 s => ⟨_, exec_andReg dr sr1 sr2 s, writeResult_run _ _ s, fun k => ?_⟩,
    fun dr sr1 imm5 s => ⟨_, exec_andImm dr sr1 imm5 s, writeResult_run _ _ s, fun k hk => ?_⟩,
    fun dr sr s => ⟨_, exec_not dr sr s, writeResult_run _ _ s, fun k hk => ?_, _, exec_addImm dr dr 1#5 _, ?_⟩⟩
  all_goals rw [writeResult_reg_same]
  · exact BitVec.toNat_add _ _
  · rw [BitVec.ofInt_add, BitVec.ofInt_toInt, BitVec.ofInt_toInt]
  · rw [BitVec.ofInt_add, BitVec.ofInt_toInt, sext_eq_ofInt]
  · exact BitVec.getLsbD_and
  · rw [BitVec.getLsbD_and, sext_getLsbD imm5 hk]
  · rw [BitVec.getLsbD_not, decide_eq_true hk, Bool.true_and]
  · rw [writeResult_reg_same, not_add_sext_one]

end Sys2Proof.Machine
end

section
/-! The fields of the layouts of JMP and JSRR, with any value in the ignored bits (spec/41_control.md R91, R94). -/

namespace Sys2Proof

/-- The layout of JMP is that of NOT with the destination's bits ignored too (R91). -/
theorem fields_jumpRegister (x : BitVec 3) (base : Reg) (y : BitVec 6) :
    let w : Word := 0b1100#4 ++ x ++ regBits base ++ y
    opcodeField w = 0xC#4 ∧ sr1Field w = base := by
  obtain ⟨hop, -, hbase⟩ := fields_belowSource 0b1100#4 (regOfBits x) base y
  rw [regBits_regOfBits] at hop hbase
  exact ⟨hop, hbase⟩

/-- The layout of JSRR: the long flag is clear (R94). -/
theorem fields_callRegister (x : BitVec 2) (base : Reg) (y : BitVec 6) :
    let w : Word := 0b0100#4 ++ 0b0#1 ++ x ++ regBits base ++ y
    opcodeField w = 0x4#4 ∧ longFlag w = false ∧ sr1Field w = base := by
  simp [opcodeField, sr1Field, longFlag_eq_iff, BitVec.extractLsb'_append_eq_of_le,
    BitVec.extractLsb'_append_eq_of_add_le, -Nat.reduceAdd]

end Sys2Proof
end

section
/-! What BR, JMP, RET, JSR and JSRR leave (spec/41_control.md R90 to R94). -/

namespace Sys2Proof.Machine

theorem exec_br_taken {nzp : BitVec 3} {s : State} (h : nzp &&& s.cond ≠ 0b000#3) (offset9 : BitVec 9) :
    exec (.br nzp offset9) s = .next { s with pc := s.pc + sext offset9 } :=
  congrArg Host.Outcome.next (if_pos h)

theorem exec_br_not_taken {nzp : BitVec 3} {s : State} (h : nzp &&& s.cond = 0b000#3) (offset9 : BitVec 9) :
    exec (.br nzp offset9) s = .next s :=
  congrArg Host.Outcome.next (if_neg (not_not_intro h))

theorem exec_jmp (base : Reg) (s : State) : exec (.jmp base) s = .next { s with pc := s.reg base } := rfl

theorem exec_ret (s : State) : exec .ret s = .next { s with pc := s.reg 7 } := rfl

theorem exec_jsr (offset11 : BitVec 11) (s : State) :
    exec (.jsr offset11) s = .next { s with regs := s.regs.set 7 s.pc, pc := s.pc + sext offset11 } := rfl

/-- The base register is read after the link is written (R94). -/
theorem exec_jsrr (base : Reg) (s : State) :
    exec (.jsrr base) s = .next { s with regs := s.regs.set 7 s.pc, pc := (linkR7 s).reg base } := rfl

end Sys2Proof.Machine
end

section
/-! The obligations on BR, JMP, RET, JSR and JSRR (spec/41_control.md). -/

namespace Sys2Proof.Machine

/-- Settles O15: the layout has no ignored bits, so it is the encoding; the mask against the flags decides the branch. -/
theorem branchTakenExactlyWhenMaskMeetsFlags : Obligations.BranchTakenExactlyWhenMaskMeetsFlags :=
  ⟨fun nzp offset9 => decodeEncodeRoundTrip (.br nzp offset9) rfl,
   fun _ offset9 _ => ⟨fun htaken => by rw [exec_br_taken htaken, sext_eq_ofInt],
     fun hnot => exec_br_not_taken hnot offset9⟩⟩

/-- Settles O16: a word of the layout is RET when its base register is R7 and JMP otherwise (R68), with one meaning. -/
theorem jumpGoesToBaseRegister : Obligations.JumpGoesToBaseRegister := by
  refine ⟨fun x base y => ?_, exec_jmp, exec_ret⟩
  by_cases hbase : base = 7
  · subst hbase
    exact ⟨.ret, decode_of_inRow rfl (fields_jumpRegister x 7 y), exec_ret⟩
  · exact ⟨.jmp base, decode_of_inRow (bne_iff_ne.mpr hbase) (fields_jumpRegister x base y), exec_jmp base⟩

/-- Settles O17: the layout has no ignored bits, so it is the encoding. -/
theorem jsrLinksR7AndBranches : Obligations.JsrLinksR7AndBranches :=
  ⟨fun offset11 => decodeEncodeRoundTrip (.jsr offset11) rfl,
   fun offset11 s => by rw [exec_jsr, sext_eq_ofInt]⟩

/-- Settles O18: the layout lies in JSRR's row; read after the link, R7 holds the incremented PC. -/
theorem jsrrWritesR7BeforeReadingBase : Obligations.JsrrWritesR7BeforeReadingBase :=
  ⟨fun x base y => decode_of_inRow rfl (fields_callRegister x base y),
   fun base s => by rw [exec_jsrr, linkR7_reg]⟩

end Sys2Proof.Machine
end

section
/-! What LD, LDI, LDR, LEA, ST, STI and STR leave (spec/42_load_store.md R100 to R107). -/

namespace Sys2Proof.Machine

/-! ### The instructions without a pointer -/

theorem exec_ld (dr : Reg) (offset9 : BitVec 9) (s : State) :
    exec (.ld dr offset9) s = loadFrom dr (s.pc + sext offset9) s := rfl

theorem exec_ldr (dr base : Reg) (offset6 : BitVec 6) (s : State) :
    exec (.ldr dr base offset6) s = loadFrom dr (s.reg base + sext offset6) s := rfl

theorem exec_lea (dr : Reg) (offset9 : BitVec 9) (s : State) :
    exec (.lea dr offset9) s = .next (writeResult dr (s.pc + sext offset9) s) := rfl

theorem exec_st (sr : Reg) (offset9 : BitVec 9) (s : State) :
    exec (.st sr offset9) s = .next (memWrite (s.pc + sext offset9) (s.reg sr) s) := rfl

theorem exec_str (sr base : Reg) (offset6 : BitVec 6) (s : State) :
    exec (.str sr base offset6) s = .next (memWrite (s.reg base + sext offset6) (s.reg sr) s) := rfl

/-! ### LDI and STI, by the outcome of the pointer read -/

theorem exec_ldi_of_pointer {offset9 : BitVec 9} {p : Word} {s s1 : State}
    (hread : memRead (s.pc + sext offset9) s = .ok (p, s1)) (dr : Reg) :
    exec (.ldi dr offset9) s = loadFrom dr p s1 :=
  congrArg (afterAccess · (loadFrom dr)) hread

theorem exec_ldi_of_pointer_error {offset9 : BitVec 9} {f : Fault} {s : State}
    (hread : memRead (s.pc + sext offset9) s = .error f) (dr : Reg) : exec (.ldi dr offset9) s = .fault f :=
  afterAccess_fault.mpr (.inl hread)

/-- The pointer read leaves the registers, so the value stored is the source's before it. -/
theorem exec_sti_of_pointer {offset9 : BitVec 9} {p : Word} {s s1 : State}
    (hread : memRead (s.pc + sext offset9) s = .ok (p, s1)) (sr : Reg) :
    exec (.sti sr offset9) s = .next (memWrite p (s.reg sr) s1) :=
  afterAccess_next.mpr ⟨p, s1, hread, by rw [(memRead_readFrame hread).reg]⟩

theorem exec_sti_of_pointer_error {offset9 : BitVec 9} {f : Fault} {s : State}
    (hread : memRead (s.pc + sext offset9) s = .error f) (sr : Reg) : exec (.sti sr offset9) s = .fault f :=
  afterAccess_fault.mpr (.inl hread)

/-! ### What a load leaves -/

/-- Away from 0xFE00 a load gives the stored cell and its flag by sign (R15, R107). -/
theorem loadFrom_eq_signFlag {a : Word} (ha : a ≠ 0xFE00#16) (dr : Reg) (s : State) :
    loadFrom dr a s = .next { s with regs := s.regs.set dr (s.cell a), cond := signFlag (s.cell a) } := by
  rw [loadFrom_of_ne ha, writeResult_eq_signFlag]

/-- A load from any address: the plain read, and the keyboard read with a character and without one (R42 to R44). -/
theorem loadFrom_cases (dr : Reg) (a : Word) (s : State) :
    (a ≠ 0xFE00#16 → loadFrom dr a s = .next { s with
      regs := s.regs.set dr (s.cell a), cond := signFlag (s.cell a) }) ∧
    (a = 0xFE00#16 → ∀ c s1, inChar s = .ok (c, s1) → loadFrom dr a s = .next
      { keyboardLatched c s1 with regs := s.regs.set dr 0x8000#16, cond := 0b100#3 }) ∧
    (a = 0xFE00#16 → ∀ f, inChar s = .error f → loadFrom dr a s = .fault f) := by
  refine ⟨fun ha => loadFrom_eq_signFlag ha dr s, ?_, ?_⟩
  · rintro rfl c s1 hchar
    exact loadFrom_kbsr_of_ok hchar dr
  · rintro rfl f hchar
    exact loadFrom_kbsr_of_error hchar dr

/-- A load through the pointer that the keyboard read gave: 0x8000 is no keyboard cell (R101). -/
theorem loadFrom_kbsrReady_of_latched {s s1 : State} {c : Word} (hchar : inChar s = .ok (c, s1)) (dr : Reg) :
    loadFrom dr 0x8000#16 (keyboardLatched c s1) = .next { keyboardLatched c s1 with
      regs := s.regs.set dr (s.cell 0x8000#16), cond := signFlag (s.cell 0x8000#16) } := by
  have hcell : (keyboardLatched c s1).cell 0x8000#16 = s.cell 0x8000#16 := by simp [inChar_cell hchar]
  rw [loadFrom_eq_signFlag (by decide), hcell, keyboardLatched_regs, (inChar_readFrame hchar).regs]

end Sys2Proof.Machine
end

section
/-! The obligations on LD, LDI, LDR, LEA, ST, STI and STR (spec/42_load_store.md). Their layouts have no ignored bits, so each
is the encoding. -/

namespace Sys2Proof.Machine

/-- Settles O19: the cases of a load. -/
theorem loadReadsPcRelativeCell : Obligations.LoadReadsPcRelativeCell := by
  refine ⟨fun dr offset9 => decodeEncodeRoundTrip (.ld dr offset9) rfl, fun dr offset9 s => ?_⟩
  intro ea
  simp only [exec_ld, sext_eq_ofInt]
  exact loadFrom_cases dr ea s

/-- Settles O20: the cases of the pointer read, then those of the load at the pointer. -/
theorem loadIndirectReadsThroughPointer : Obligations.LoadIndirectReadsThroughPointer := by
  refine ⟨fun dr offset9 => decodeEncodeRoundTrip (.ldi dr offset9) rfl, fun dr offset9 s => ?_⟩
  intro ea
  have hplain (hea : ea ≠ 0xFE00#16) : exec (.ldi dr offset9) s = loadFrom dr (s.cell ea) s :=
    exec_ldi_of_pointer (memRead_of_ne hea s) dr
  obtain ⟨hne, hok, herror⟩ := loadFrom_cases dr (s.cell ea) s
  refine ⟨fun hea hp => (hplain hea).trans (hne hp), fun hea hp c s1 hchar => (hplain hea).trans (hok hp c s1 hchar),
    fun hea c s1 hchar => ?_, fun hkbsr f hchar => ?_⟩
  · have hread : memRead ea s = .ok (0x8000#16, keyboardLatched c s1) := hea ▸ memRead_kbsr_of_ok hchar
    exact (exec_ldi_of_pointer hread dr).trans (loadFrom_kbsrReady_of_latched hchar dr)
  · by_cases hea : ea = 0xFE00#16
    · exact exec_ldi_of_pointer_error (memRead_error.mpr ⟨hea, hchar⟩) dr
    · exact (hplain hea).trans (herror (hkbsr.resolve_left hea) f hchar)

/-- Settles O21: the cases of a load. -/
theorem loadBaseOffsetReadsCell : Obligations.LoadBaseOffsetReadsCell := by
  refine ⟨fun dr base offset6 => decodeEncodeRoundTrip (.ldr dr base offset6) rfl, fun dr base offset6 s => ?_⟩
  intro ea
  simp only [exec_ldr, sext_eq_ofInt]
  exact loadFrom_cases dr ea s

/-- Settles O22: LEA ends in `writeResult` with no access before it. -/
theorem leaWritesAddressAndFlag : Obligations.LeaWritesAddressAndFlag :=
  ⟨fun dr offset9 => decodeEncodeRoundTrip (.lea dr offset9) rfl,
   fun dr offset9 s => by rw [exec_lea, writeResult_eq_signFlag, sext_eq_ofInt]⟩

/-- Settles O23: read after write. -/
theorem storeWritesPcRelativeCell : Obligations.StoreWritesPcRelativeCell :=
  ⟨fun sr offset9 => decodeEncodeRoundTrip (.st sr offset9) rfl,
   fun sr offset9 s => ⟨_, exec_st sr offset9 s, memWrite_cell _ (s.reg sr) s⟩⟩

/-- Settles O24: the cases of the pointer read, then read after write. -/
theorem storeIndirectWritesThroughPointer : Obligations.StoreIndirectWritesThroughPointer := by
  refine ⟨fun sr offset9 => decodeEncodeRoundTrip (.sti sr offset9) rfl, fun sr offset9 s => ?_⟩
  intro ea
  refine ⟨fun hea => ?_, fun hea c s1 hchar => ?_, fun hea f hchar => ?_⟩
  · exact ⟨_, exec_sti_of_pointer (memRead_of_ne hea s) sr, memWrite_cell (s.cell ea) (s.reg sr) s⟩
  · have hread : memRead ea s = .ok (0x8000#16, keyboardLatched c s1) := hea ▸ memRead_kbsr_of_ok hchar
    exact ⟨_, exec_sti_of_pointer hread sr, memWrite_cell 0x8000#16 (s.reg sr) (keyboardLatched c s1)⟩
  · exact exec_sti_of_pointer_error (memRead_error.mpr ⟨hea, hchar⟩) sr

/-- Settles O25: read after write; the address and the value both come from the state before. -/
theorem storeBaseOffsetWritesCell : Obligations.StoreBaseOffsetWritesCell :=
  ⟨fun sr base offset6 => decodeEncodeRoundTrip (.str sr base offset6) rfl,
   fun sr base offset6 s => ⟨_, exec_str sr base offset6 s, memWrite_cell _ (s.reg sr) s⟩⟩

end Sys2Proof.Machine
end

section
/-! The word of a TRAP: its selector alone tells its row (spec/43_trap.md R120; spec/30_encoding.md R65). -/

namespace Sys2Proof

/-- The layout of TRAP: the four bits above the selector are free (R120). -/
theorem fields_trap (x : BitVec 4) (v : BitVec 8) :
    let w : Word := 0xF#4 ++ x ++ v
    opcodeField w = 0xF#4 ∧ trapvectField w = v := by
  simp [opcodeField, trapvectField, BitVec.extractLsb'_append_eq_of_le, BitVec.extractLsb'_append_eq_of_add_le,
    -Nat.reduceAdd]

theorem decode_trapWord (x : BitVec 4) (v : BitVec 8) : decode (0xF#4 ++ x ++ v) = .ok (decodeTrap v) := by
  obtain ⟨hop, hselector⟩ := fields_trap x v
  have hrow := inRow_decodeTrap hop
  rw [hselector] at hrow
  exact decode_of_inRow (wellFormed_decodeTrap v) hrow

theorem decodeTrap_of_outside {v : BitVec 8} (h : v.toNat < 0x20 ∨ 0x25 < v.toNat) :
    decodeTrap v = .trapUnrecognized v := by
  refine decodeTrap_of_not_service (Bool.eq_false_iff.mpr fun hservice => ?_)
  obtain ⟨hlow, hhigh⟩ : 0x20#8 ≤ v ∧ v ≤ 0x25#8 := by simpa [isServiceSelector] using hservice
  rw [BitVec.le_def] at hlow hhigh
  simp only [BitVec.reduceToNat] at hlow hhigh
  omega

end Sys2Proof
end

section
/-! The bytes of a word as the trap routines write them (spec/43_trap.md R122 to R125). -/

namespace Sys2Proof.Machine

theorem lowByte_eq_setWidth (v : Word) : lowByte v = v.setWidth 8 :=
  (BitVec.setWidth_eq_extractLsb' (by decide)).symm

theorem highByte_eq_setWidth (v : Word) : highByte v = (v >>> 8).setWidth 8 :=
  BitVec.eq_of_toNat_eq (by rw [highByte, BitVec.extractLsb'_toNat, BitVec.toNat_setWidth, BitVec.toNat_ushiftRight])

theorem lowByte_zext16 (ch : Byte) : lowByte (zext16 ch) = ch := by
  rw [lowByte_eq_setWidth, zext16, BitVec.setWidth_setWidth_of_le _ (by decide), BitVec.setWidth_eq]

/-- A word is a single character exactly when its high byte is zero. -/
theorem highByte_eq_zero_iff (v : Word) : highByte v = 0#8 ↔ v.toNat < 256 := by
  rw [← BitVec.toNat_inj, highByte, BitVec.extractLsb'_toNat, Nat.shiftRight_eq_div_pow]
  have hv := v.isLt
  simp only [BitVec.toNat_ofNat]
  omega

theorem putsBytes_eq (w : Word) : putsBytes w = [w.setWidth 8] := by
  rw [putsBytes, lowByte_eq_setWidth]

theorem putspBytes_eq (w : Word) :
    putspBytes w = if w.toNat < 256 then [w.setWidth 8] else [w.setWidth 8, (w >>> 8).setWidth 8] := by
  simp only [putspBytes, highByte_eq_zero_iff]
  rw [lowByte_eq_setWidth, highByte_eq_setWidth]

end Sys2Proof.Machine
end

section
/-! What the trap routines leave (spec/43_trap.md R121 to R128). -/

namespace Sys2Proof.Machine

/-! ### The routines that always complete -/

theorem exec_trapOut (s : State) : exec .trapOut s = .next (outChar (lowByte (s.reg 0)) s) := rfl

theorem exec_trapHalt (s : State) : exec .trapHalt s = .next (halt (flush s)) := rfl

theorem exec_trapUnrecognized (v : BitVec 8) (s : State) :
    exec (.trapUnrecognized v) s = .next (raiseFault (.badTrap v) s) := rfl

/-! ### GETC and IN, by the outcome of `InChar` -/

theorem exec_trapGetc_of_ok {s s1 : State} {c : Word} (h : inChar s = .ok (c, s1)) :
    exec .trapGetc s = .next (flush (setReg 0 c s1)) :=
  afterAccess_next.mpr ⟨c, s1, h, rfl⟩

theorem exec_trapGetc_of_error {s : State} {f : Fault} (h : inChar s = .error f) : exec .trapGetc s = .fault f :=
  afterAccess_fault.mpr (.inl h)

/-- The echo of a character is the character itself (R124). -/
theorem exec_trapIn_of_character {s s1 : State} {ch : Byte} (h : inChar s = .ok (zext16 ch, s1)) :
    exec .trapIn s = .next (setReg 0 (zext16 ch) (outChar ch s1)) :=
  afterAccess_next.mpr ⟨zext16 ch, s1, h, by rw [lowByte_zext16]⟩

theorem exec_trapIn_of_error {s : State} {f : Fault} (h : inChar s = .error f) : exec .trapIn s = .fault f :=
  afterAccess_fault.mpr (.inl h)

/-! ### PUTS and PUTSP, by the cells of the string -/

theorem exec_trapPuts (s : State) : exec .trapPuts s = writeString putsBytes s := rfl

theorem exec_trapPutsp (s : State) : exec .trapPutsp s = writeString putspBytes s := rfl

theorem flush_outBytes (bs : List Byte) (s : State) :
    flush (outBytes bs s) = { s with output := s.output ++ bs, flushed := s.output.length + bs.length } := by
  rw [← List.length_append]
  rfl

theorem writeString_of_zeroCell {emit : Word → List Byte} {s : State} {n : Nat} {bytes : List Byte} (hn : n < 65536)
    (hnonzero : ∀ k, k < n → s.cell (s.reg 0 + BitVec.ofNat 16 k) ≠ 0x0000#16)
    (hzero : s.cell (s.reg 0 + BitVec.ofNat 16 n) = 0x0000#16)
    (hbytes : bytes = (List.range n).flatMap fun k => emit (s.cell (s.reg 0 + BitVec.ofNat 16 k))) :
    writeString emit s = .next { s with output := s.output ++ bytes, flushed := s.output.length + bytes.length } := by
  have hlength : stringLength s.mem Config.memCells (s.reg 0) = some n := stringLength_some.mpr ⟨hn, hnonzero, hzero⟩
  refine writeString_next.mpr ⟨n, hlength, ?_⟩
  rw [stringBytes_eq, flush_outBytes, hbytes]
  rfl

theorem writeString_of_no_zeroCell {emit : Word → List Byte} {s : State} (h : ∀ a, s.cell a ≠ 0x0000#16) :
    writeString emit s = .fault .endlessString :=
  writeString_fault.mpr ⟨rfl, stringLength_memCells_none.mpr h⟩

/-- The string routines complete exactly when the wrapped string has an end (R123, R125, D13). -/
theorem writeString_completes_iff {emit : Word → List Byte} {s : State} :
    (∃ t, writeString emit s = .next t) ↔ ∃ a, s.cell a = 0x0000#16 := by
  constructor
  · rintro ⟨t, hnext⟩
    by_contra hnone
    cases hnext.symm.trans (writeString_of_no_zeroCell (not_exists.mp hnone))
  · rintro ⟨a, ha⟩
    obtain ⟨n, hlength⟩ := Option.ne_none_iff_exists'.mp fun hnone => stringLength_memCells_none.mp hnone a ha
    exact ⟨_, writeString_next.mpr ⟨n, hlength, rfl⟩⟩

/-! ### Input requests -/

/-- A request for input in `s` is answered: a character is supplied, the host gives one, or `Sentinel` ends the input
(R44, R163, R176). -/
def InputAnswered (s : State) : Prop :=
  s.input ≠ [] ∨ (s.inputEnded = false ∧ Config.hostChar s.inputPos ≠ none) ∨
    (s.inputEnded = true ∧ s.eofPolicy = .sentinel)

theorem inputAnswered_supplyInput (c : Byte) (s : State) : InputAnswered (supplyInput c s) :=
  .inl (by simp)

theorem inChar_completes_iff {s : State} : (∃ c s1, inChar s = .ok (c, s1)) ↔ InputAnswered s := by
  constructor
  · rintro ⟨c, s1, hchar⟩
    obtain ⟨ch, rest, hin, -⟩ | ⟨-, hended, ch, hhost, -⟩ | ⟨-, hended, heof, -⟩ := inChar_ok.mp hchar
    · exact .inl (hin ▸ List.cons_ne_nil ch rest)
    · exact .inr (.inl ⟨hended, hhost ▸ Option.some_ne_none ch⟩)
    · exact .inr (.inr ⟨hended, heof⟩)
  · intro hanswered
    rcases hchar : inChar s with f | ⟨c, s1⟩
    · obtain ⟨hin, ⟨-, hended, heof⟩ | ⟨-, hended, hhost⟩⟩ := inChar_error.mp hchar
      · simp [InputAnswered, hin, hended, heof] at hanswered
      · simp [InputAnswered, hin, hended, hhost] at hanswered
    · exact ⟨c, s1, rfl⟩

theorem afterAccess_completes_iff {α : Type} {r : Access α} {k : α → State → State} :
    (∃ t, afterAccess r (fun v s1 => .next (k v s1)) = .next t) ↔ ∃ v s1, r = .ok (v, s1) := by
  rcases r with f | ⟨v, s1⟩ <;> simp [afterAccess]

theorem memRead_kbsr_completes_iff {s : State} :
    (∃ v t, memRead 0xFE00#16 s = .ok (v, t)) ↔ ∃ c s1, inChar s = .ok (c, s1) := by
  rcases h : inChar s with f | ⟨c, s1⟩
  · simp [memRead_kbsr_of_error h]
  · simp [memRead_kbsr_of_ok h]

/-! ### The flush points -/

/-- The instructions that end with a flush (R128). -/
def IsFlushPoint (i : Instr) : Prop := i = .trapPuts ∨ i = .trapPutsp ∨ i = .trapGetc ∨ i = .trapHalt

theorem Effect.flushed_of_flushPoint {i : Instr} {s t : State} (h : Effect s i t) (hi : IsFlushPoint i) :
    t.flushed = t.output.length := by
  cases h with
  | result hflags | store _ hstore => obtain rfl | rfl | rfl | rfl := hi <;> contradiction
  | puts | putsp | getc | halt => rfl
  | _ => simp [IsFlushPoint] at hi

theorem Effect.flushed_of_not_flushPoint {i : Instr} {s t : State} (h : Effect s i t) (hi : ¬ IsFlushPoint i) :
    t.flushed = s.flushed := by
  cases h with
  | result _ _ hreads | store _ _ hreads => exact hreads.frame.flushed
  | inEcho hchar => exact (inChar_readFrame hchar).flushed
  | puts | putsp | getc | halt => simp [IsFlushPoint] at hi
  | _ => rfl

end Sys2Proof.Machine
end

section
/-! The obligations on the trap routines (spec/43_trap.md). -/

namespace Sys2Proof.Machine

/-- Settles O26: the selector gives the row; no routine has R7 as its destination, sets flags or jumps. -/
theorem trapSelectsItsRoutine : Obligations.TrapSelectsItsRoutine := by
  refine ⟨fun x => ⟨decode_trapWord x _, decode_trapWord x _, decode_trapWord x _, decode_trapWord x _,
    decode_trapWord x _, decode_trapWord x _, fun v hv => ?_⟩, fun i s t hi hexec => ?_⟩
  · rw [decode_trapWord, decodeTrap_of_outside hv]
  · have heff := effect_of_exec hexec
    obtain ⟨hdest, hflags, hjump⟩ : destination i ≠ some 7 ∧ setsFlags i = false ∧ mayJump i = false := by
      obtain rfl | rfl | rfl | rfl | rfl | rfl | ⟨v, rfl⟩ := hi <;> simp [destination, setsFlags, mayJump]
    exact ⟨heff.reg_of_ne_destination hdest, heff.cond_of_not_setsFlags hflags, heff.pc_of_not_mayJump hjump⟩

/-- Settles O27: GETC after `InChar` with a supplied character, with the host's answer and with none. -/
theorem getcReadsOneCharacterIntoR0 : Obligations.GetcReadsOneCharacterIntoR0 := by
  refine ⟨fun s ch rest hin => exec_trapGetc_of_ok (inChar_of_supplied hin), fun s hin hended => ?_⟩
  obtain ⟨ch, hhost, hchar⟩ | ⟨hhost, hchar⟩ := inChar_of_none_supplied hin hended
  · exact .inl ⟨ch, hhost, exec_trapGetc_of_ok hchar⟩
  · exact .inr ⟨hhost, exec_trapGetc_of_error hchar⟩

/-- Settles O28: the selector gives the row, and the low byte is the truncated register. -/
theorem outAppendsLowByteOfR0 : Obligations.OutAppendsLowByteOfR0 :=
  ⟨fun x => decode_trapWord x 0x21#8, fun s => by rw [exec_trapOut, lowByte_eq_setWidth]; rfl⟩

/-- Settles O29: PUTS writes one byte for each cell of the string. -/
theorem putsWritesLowBytesUntilZeroCell : Obligations.PutsWritesLowBytesUntilZeroCell := by
  refine ⟨fun s n hn hnonzero hzero => ?_, fun s => writeString_of_no_zeroCell⟩
  have hnext := writeString_of_zeroCell (emit := putsBytes) hn hnonzero hzero rfl
  simpa only [exec_trapPuts, putsBytes_eq, ← List.map_eq_flatMap, List.length_map, List.length_range] using hnext

/-- Settles O30: IN after `InChar` with a supplied character, with the host's answer and with none. -/
theorem inReadsEchoesAndStoresCharacter : Obligations.InReadsEchoesAndStoresCharacter := by
  refine ⟨fun s ch rest hin => exec_trapIn_of_character (inChar_of_supplied hin), fun s hin hended => ?_⟩
  obtain ⟨ch, hhost, hchar⟩ | ⟨hhost, hchar⟩ := inChar_of_none_supplied hin hended
  · exact .inl ⟨ch, hhost, exec_trapIn_of_character hchar⟩
  · exact .inr ⟨hhost, exec_trapIn_of_error hchar⟩

/-- Settles O31: PUTSP writes the bytes of `putspBytes_eq` for each cell of the string. -/
theorem putspWritesPackedBytesUntilZeroCell : Obligations.PutspWritesPackedBytesUntilZeroCell := by
  refine ⟨fun s n bytes hn hnonzero hzero hbytes => ?_, fun s => writeString_of_no_zeroCell⟩
  refine writeString_of_zeroCell hn hnonzero hzero ?_
  simp only [hbytes, putspBytes_eq]

/-- Settles O35: both routines are the same loop. -/
theorem stringRoutineEndsExactlyWhenACellIsZero : Obligations.StringRoutineEndsExactlyWhenACellIsZero :=
  fun _ => ⟨writeString_completes_iff, writeString_completes_iff⟩

/-- Settles O53: the flush mark at the flush points and at every other instruction. -/
theorem outputIsFlushedExactlyAtFlushPoints : Obligations.OutputIsFlushedExactlyAtFlushPoints := by
  refine ⟨fun b s => rfl, fun b c s => ?_, fun s => rfl, fun i s t hexec => ?_⟩
  · simp only [outChar_output, List.append_assoc, List.singleton_append]
  · have heff := effect_of_exec hexec
    split
    case isTrue hi => exact heff.flushed_of_flushPoint hi
    case isFalse hi => exact heff.flushed_of_not_flushPoint hi

/-- Settles O60: each of the three requests completes exactly when its `InChar` does, and a supplied character answers it. -/
theorem inputRequestEndsExactlyWhenAnswered : Obligations.InputRequestEndsExactlyWhenAnswered := by
  have hgetc (s : State) : (∃ t, exec .trapGetc s = .next t) ↔ InputAnswered s :=
    afterAccess_completes_iff.trans inChar_completes_iff
  have hin (s : State) : (∃ t, exec .trapIn s = .next t) ↔ InputAnswered s :=
    afterAccess_completes_iff.trans inChar_completes_iff
  have hread (s : State) : (∃ v t, memRead 0xFE00#16 s = .ok (v, t)) ↔ InputAnswered s :=
    memRead_kbsr_completes_iff.trans inChar_completes_iff
  refine ⟨fun s => ⟨hgetc s, hin s, hread s⟩, fun s c => ?_⟩
  have hsupplied := inputAnswered_supplyInput c s
  exact ⟨(hgetc _).mpr hsupplied, (hin _).mpr hsupplied, (hread _).mpr hsupplied⟩

/-- Settles O32: a flush, then the halt. -/
theorem haltFlushesAndEndsTheRun : Obligations.HaltFlushesAndEndsTheRun :=
  ⟨exec_trapHalt, rfl⟩

/-- Settles O33: the fault with the selector that was fetched. -/
theorem unrecognizedSelectorFaults : Obligations.UnrecognizedSelectorFaults :=
  exec_trapUnrecognized

end Sys2Proof.Machine
end

section
/-! The words of RTI and RES: the opcode alone tells the row (spec/44_reserved.md R140, R141). -/

namespace Sys2Proof

/-- The layout of an opcode with all twelve bits below it free (R140, R141). -/
theorem opcodeField_append (op : BitVec 4) (x : BitVec 12) : opcodeField (op ++ x) = op := by
  simp [opcodeField, BitVec.extractLsb'_append_eq_of_le, -Nat.reduceAdd]

theorem decode_rtiWord (x : BitVec 12) : decode (0b1000#4 ++ x) = .ok .rti :=
  decode_of_inRow rfl (opcodeField_append 0b1000#4 x)

theorem decode_resWord (x : BitVec 12) : decode (0b1101#4 ++ x) = .ok .res :=
  decode_of_inRow rfl (opcodeField_append 0b1101#4 x)

end Sys2Proof
end

section
/-! The reserved instructions and the state FAULTED that they leave (spec/44_reserved.md; spec/60_exceptions.md R151, R164). -/

namespace Sys2Proof.Machine

theorem exec_rti (s : State) : exec .rti s = .next (raiseFault (.unusedOpcode .rti) s) := rfl

theorem exec_res (s : State) : exec .res s = .next (raiseFault (.unusedOpcode .res) s) := rfl

/-- A step away from 0xFE00 is the instruction of the stored word, after the PC increment (R72). -/
theorem step_of_cell {s : State} {w : Word} {i : Instr} (hrun : s.run = .running) (hpc : s.pc ≠ 0xFE00#16)
    (hcell : s.cell s.pc = w) (hdecode : decode w = .ok i) : step s = exec i (setPc (s.pc + 1#16) s) :=
  step_of_fetch hrun (fetch_of_cell hpc hcell) hdecode

/-- No step is taken in FAULTED (R30, R155). -/
theorem step_ne_next_of_faulted {s : State} {r : FaultReason} (hrun : s.run = .faulted r) (t : State) :
    step s ≠ .next t := by
  intro hnext
  have hrunning := (step_next_exec hnext).1
  rw [hrun] at hrunning
  cases hrunning

/-- FAULTED has a nonzero exit status, whatever the reason (R164). -/
theorem exitStatus_faulted_ne_zero (r : FaultReason) : ∃ n, exitStatus (.faulted r) = some n ∧ n ≠ 0 :=
  ⟨Config.exitCode (failureClass r), rfl, Nat.succ_ne_zero _⟩

/-- Settles O34: the opcode gives the row, and its meaning after the fetch is the fault. -/
theorem reservedOpcodesTakeUnusedOpcodeFault : Obligations.ReservedOpcodesTakeUnusedOpcodeFault :=
  ⟨fun x => ⟨decode_rtiWord x, decode_resWord x⟩,
   fun s => ⟨exec_rti s, exec_res s⟩,
   fun _ x hrun hpc => ⟨fun hcell => step_of_cell hrun hpc hcell (decode_rtiWord x),
     fun hcell => step_of_cell hrun hpc hcell (decode_resWord x)⟩,
   fun _ t _ hrun => step_ne_next_of_faulted hrun t,
   fun op => exitStatus_faulted_ne_zero (.unusedOpcode op)⟩

end Sys2Proof.Machine
end

section
/-! The obligations on a fault and on an abort by the host (spec/60_exceptions.md R151, R165). -/

namespace Sys2Proof.Machine

/-! ### The faulting instruction -/

/-- An instruction that enters FAULTED does nothing but take the fault (R151). -/
theorem exec_next_faulted {i : Instr} {s t : State} {r : FaultReason} (hs : s.run = .running)
    (hexec : exec i s = .next t) (ht : t.run = .faulted r) : t = raiseFault r s := by
  obtain hkept | ⟨-, hhalted⟩ | ⟨r', hfaulted, hi⟩ := (effect_of_exec hexec).run_cases
  · cases (ht.symm.trans hkept).trans hs
  · cases ht.symm.trans hhalted
  · obtain rfl : r' = r := RunState.faulted.inj (hfaulted.symm.trans ht)
    obtain ⟨rfl, rfl⟩ | ⟨rfl, rfl⟩ | ⟨v, rfl, rfl⟩ := hi <;> cases hexec <;> rfl

/-- Settles O47: a faulting step is the fetch and `raiseFault`. -/
theorem faultChangesOnlyTheRunState : Obligations.FaultChangesOnlyTheRunState := by
  refine ⟨fun r s => rfl, fun s t r hstep ht => ?_, fun s t r hs => step_ne_next_of_faulted hs t,
    exitStatus_faulted_ne_zero⟩
  obtain ⟨hrun, w, s1, i, hfetch, -, hexec⟩ := step_next_exec hstep
  obtain ⟨hpc, hframe⟩ := fetch_frame hfetch
  exact ⟨w, s1, hfetch, hpc, exec_next_faulted (hframe.run.trans hrun) hexec ht⟩

/-! ### The string routine that an abort can stop -/

theorem string_routine_of_stringEmit {i : Instr} {emit : Word → List Byte} (h : stringEmit i = some emit) :
    i = .trapPuts ∨ i = .trapPutsp := by
  cases i with
  | trapPuts => exact .inl rfl
  | trapPutsp => exact .inr rfl
  | _ => cases h

/-- The fetch at 0xFE00 delivers RTI (D7), so the fetch of any other instruction moves only pc. -/
theorem fetch_moves_only_pc {s s1 : State} {w : Word} (hfetch : fetch s = .ok (w, s1)) (hw : decode w ≠ .ok .rti) :
    s1 = setPc (s.pc + 1#16) s := by
  obtain ⟨-, -, hs1⟩ | ⟨-, rfl, -⟩ := fetch_cases hfetch
  · exact hs1
  · exact absurd decode_keyboardReady hw

theorem no_zeroCell_of_step_endlessString {s : State} (hrun : s.run = .running)
    (h : step s = .fault .endlessString) : ∀ a, s.cell a ≠ 0x0000#16 := by
  have hstuck (t : State) : step s ≠ .next t := by simp [h]
  obtain ⟨hinput, -⟩ | ⟨hinput, -⟩ | ⟨-, hcells⟩ := runningStepStopsOnlyForInputOrEndlessString s hrun hstuck
  · cases h.symm.trans hinput
  · cases h.symm.trans hinput
  · exact hcells

/-- Settles O59: the state itself, or the state of a string routine after its fetch with some bytes appended. -/
theorem abortLeavesNoInstructionHalfDone : Obligations.AbortLeavesNoInstructionHalfDone := by
  rintro s t ⟨hrun, rfl | ⟨w, s1, i, emit, n, k, hfetch, hdecode, hemit, hstep, rfl⟩⟩
  · exact ⟨hrun, hrun, rfl, rfl, rfl, rfl, rfl, ⟨[], (List.append_nil _).symm⟩, fun hne => absurd rfl hne⟩
  · have hi : decode w = .ok .trapPuts ∨ decode w = .ok .trapPutsp := by
      simpa only [hdecode, Except.ok.injEq] using string_routine_of_stringEmit hemit
    have hnotRti : decode w ≠ .ok .rti := by rcases hi with hi | hi <;> simp [hi]
    obtain rfl := fetch_moves_only_pc hfetch hnotRti
    exact ⟨hrun, hrun, rfl, rfl, rfl, rfl, rfl, ⟨_, rfl⟩,
      fun _ => ⟨hstep, no_zeroCell_of_step_endlessString hrun hstep, w, _, hfetch, hi⟩⟩

end Sys2Proof.Machine
end

section
/-! The launch of an image: where its words go, and the state in which its run starts (spec/70_reset_and_hazards.md R170 to
R172). -/

namespace Sys2Proof.Machine

/-! ### The words of an image -/

theorem imageWords_length : ∀ bytes : List Byte, (imageWords bytes).length = bytes.length / 2
  | [] => rfl
  | [_] => by simp [imageWords]
  | _ :: _ :: rest => by
    simp only [imageWords, List.length_cons, imageWords_length rest]
    omega

/-- Word `k` is the bytes `2 * k` and `2 * k + 1`, the first of them high (R171). -/
theorem imageWords_getElem? {bytes : List Byte} {k : Nat} (h : 2 * k + 1 < bytes.length) :
    (imageWords bytes)[k]? = some (bytes[2 * k] ++ bytes[2 * k + 1]) := by
  induction k generalizing bytes with
  | zero =>
    match bytes, h with
    | hi :: lo :: rest, _ => rfl
  | succ k ih =>
    match bytes, h with
    | hi :: lo :: rest, h =>
      have hrest : 2 * k + 1 < rest.length := by simp only [List.length_cons] at h; omega
      exact ih hrest

/-! ### Where the words go -/

theorem placeWords_cons {a : Nat} (ha : a < Config.memCells) (w : Word) (ws : List Word) (m : Memory) :
    placeWords a (w :: ws) m = placeWords (a + 1) ws (m.write a w) :=
  if_pos ha

theorem placeWords_of_memCells_le {a : Nat} (ha : Config.memCells ≤ a) (ws : List Word) (m : Memory) :
    placeWords a ws m = m := by
  cases ws with
  | nil => rfl
  | cons w ws => exact if_neg ha.not_gt

/-- A cell at which no word falls keeps its contents. -/
theorem read_placeWords_of_outside {ws : List Word} {a b : Nat} (hb : ∀ k < ws.length, b ≠ a + k) (m : Memory) :
    (placeWords a ws m).read b = m.read b := by
  induction ws generalizing a m with
  | nil => rfl
  | cons w ws ih =>
    by_cases ha : a < Config.memCells
    · have hrest : ∀ k < ws.length, b ≠ a + 1 + k := fun k hk => by
        have := hb (k + 1) (Nat.succ_lt_succ hk)
        omega
      rw [placeWords_cons ha, ih hrest, Memory.read_write, if_neg (show b ≠ a from hb 0 (Nat.succ_pos _))]
    · rw [placeWords_of_memCells_le (Nat.le_of_not_lt ha)]

/-- Word `k` is at `a + k` if that is an address (R171). The later words do not overwrite it, as they lie above it. -/
theorem read_placeWords_of_getElem? {ws : List Word} {k : Nat} {w : Word} (hw : ws[k]? = some w) {a : Nat}
    (ha : a + k < Config.memCells) (m : Memory) : (placeWords a ws m).read (a + k) = w := by
  induction ws generalizing a k m with
  | nil => cases hw
  | cons first ws ih =>
    rw [placeWords_cons (Nat.lt_of_le_of_lt (Nat.le_add_right a k) ha)]
    cases k with
    | zero =>
      have habove : ∀ j < ws.length, a ≠ a + 1 + j := fun j _ => by omega
      calc (placeWords (a + 1) ws (m.write a first)).read a
        _ = (m.write a first).read a := read_placeWords_of_outside habove _
        _ = first := by rw [Memory.read_write, if_pos rfl]
        _ = w := Option.some.inj hw
    | succ k =>
      have haddr : a + (k + 1) = a + 1 + k := by omega
      rw [haddr] at ha ⊢
      exact ih hw ha _

/-! ### The launched state -/

/-- The state in which a run of the image with origin `hi ++ lo` and the bytes `rest` after it starts (R170, R171). -/
def launched (hi lo : Byte) (rest : List Byte) : State :=
  { State.reset with mem := placeWords (hi ++ lo).toNat (imageWords rest) [] }

theorem loadImage_cons_cons (hi lo : Byte) (rest : List Byte) :
    loadImage (hi :: lo :: rest) = .ok (launched hi lo rest) := rfl

/-- An image that loads has a whole origin. -/
theorem loadImage_ok {bytes : List Byte} {s : State} (h : loadImage bytes = .ok s) :
    ∃ hi lo rest, bytes = hi :: lo :: rest ∧ s = launched hi lo rest := by
  match bytes, h with
  | hi :: lo :: rest, h => exact ⟨hi, lo, rest, rfl, (Except.ok.inj h).symm⟩

theorem launched_mem_wf (hi lo : Byte) (rest : List Byte) : (launched hi lo rest).mem.wf :=
  placeWords_wf Memory.wf_nil _ _

/-- Settles O2: the words of the image by `imageWords_getElem?`, their places by the two reads after `placeWords`. -/
theorem launchedImageLiesInZeroMemory : Obligations.LaunchedImageLiesInZeroMemory := by
  refine ⟨fun hi lo rest => ⟨_, loadImage_cons_cons hi lo rest, rfl, launched_mem_wf hi lo rest,
    fun k h haddr => read_placeWords_of_getElem? (imageWords_getElem? h) haddr [], fun a ha => ?_⟩, rfl, fun _ => rfl⟩
  refine read_placeWords_of_outside (fun k hk => ha k ?_) []
  rw [imageWords_length] at hk
  omega

/-! ### The invariant when a run starts -/

theorem reset_inv : Inv State.reset := ⟨reset_memory_wf, .inl rfl, Nat.le_refl 0⟩

/-- The invariant speaks of memory, `cond` and the output only, and the launched state has the last two from reset. -/
theorem launched_inv (hi lo : Byte) (rest : List Byte) : Inv (launched hi lo rest) := by
  obtain ⟨-, hcond, hflushed⟩ := reset_inv
  exact ⟨launched_mem_wf hi lo rest, hcond, hflushed⟩

/-- Settles O56: an image that loads gives a launched state. -/
theorem resetMeetsTheRunInvariant : Obligations.ResetMeetsTheRunInvariant := by
  refine ⟨reset_inv, fun bytes s hload => ?_⟩
  obtain ⟨hi, lo, rest, -, rfl⟩ := loadImage_ok hload
  exact launched_inv hi lo rest

end Sys2Proof.Machine
end
